-- ==== Sys2Proof/Word.lean ====
section
/-! DEFINITION. The machine's word, a console byte, and a register number (spec 00_scope R9, R13). -/

namespace Sys2Proof

/-- A register, address or memory cell: an unsigned 16-bit word (R13). -/
abbrev Word := BitVec 16

/-- A console output byte, or an input code unit (R184, R214). -/
abbrev Byte := BitVec 8

/-- A general register R0..R7, named by a 3-bit field; every field value names one (R30, R100). -/
abbrev Reg := Fin 8

end Sys2Proof
end

