-- ==== Sys2Proof/Syntax.lean ====
section
/-! DEFINITION. The instructions: one constructor per row of spec/opcode_table.json. Bits that a format
ignores (spec 30_encoding R93) are no part of the instruction. -/

namespace Sys2Proof

/-- An instruction (R92, R95). Offsets and immediates are the fields as encoded; the machine extends them (R94). -/
inductive Instr where
  /-- ADD, register mode (R140) -/
  | addReg (dst src1 src2 : Reg)
  /-- ADD, immediate mode (R141) -/
  | addImm (dst src1 : Reg) (imm5 : BitVec 5)
  /-- AND, register mode (R142) -/
  | andReg (dst src1 src2 : Reg)
  /-- AND, immediate mode (R143) -/
  | andImm (dst src1 : Reg) (imm5 : BitVec 5)
  /-- NOT (R144) -/
  | not (dst src : Reg)
  /-- BR (R150): `mask` holds n, z, p as bits 2, 1, 0 (R99) -/
  | br (mask : BitVec 3) (offset9 : BitVec 9)
  /-- JMP, and RET when the base is R7 (R151) -/
  | jmp (base : Reg)
  /-- JSR (R152) -/
  | jsr (offset11 : BitVec 11)
  /-- JSRR (R153) -/
  | jsrr (base : Reg)
  /-- LD (R160) -/
  | ld (dst : Reg) (offset9 : BitVec 9)
  /-- LDI (R161) -/
  | ldi (dst : Reg) (offset9 : BitVec 9)
  /-- LDR (R162) -/
  | ldr (dst base : Reg) (offset6 : BitVec 6)
  /-- LEA (R163) -/
  | lea (dst : Reg) (offset9 : BitVec 9)
  /-- ST (R164) -/
  | st (src : Reg) (offset9 : BitVec 9)
  /-- STI (R165) -/
  | sti (src : Reg) (offset9 : BitVec 9)
  /-- STR (R166) -/
  | str (src base : Reg) (offset6 : BitVec 6)
  /-- TRAP (R180) -/
  | trap (vector : BitVec 8)
  /-- the reserved opcode 0b1000 (R126) -/
  | illegal8
  /-- the reserved opcode 0b1101 (R126) -/
  | illegalD
deriving DecidableEq, Repr

end Sys2Proof
end

