-- ==== Sys2Proof/WellFormed.lean ====
section
/-! DEFINITION. Which instruction terms are well formed. In this ISA all are: every register field names a
register (spec 30_encoding R100), every offset, immediate, mask and vector value is legal (R96, R103), and the
operand types of Instr already hold each field to its width, so there is no check left to make (log 24). -/

namespace Sys2Proof

/-- Every term of Instr is the decoding of some word (R96, R100). -/
def Instr.wellFormed : Instr → Bool
  | .addReg _ _ _ => true
  | .addImm _ _ _ => true
  | .andReg _ _ _ => true
  | .andImm _ _ _ => true
  | .not _ _ => true
  | .br _ _ => true
  | .jmp _ => true
  | .jsr _ => true
  | .jsrr _ => true
  | .ld _ _ => true
  | .ldi _ _ => true
  | .ldr _ _ _ => true
  | .lea _ _ => true
  | .st _ _ => true
  | .sti _ _ => true
  | .str _ _ _ => true
  | .trap _ => true
  | .illegal8 => true
  | .illegalD => true

end Sys2Proof
end

