-- ==== Sys2Proof/Decode.lean ====
section
/-! DEFINITION. The decoder, total on every 16-bit word (spec 30_encoding R96), and the encoder, both written
from R92, R94 and R95. The opcode numbers stand in one place, `Opcode.number` (R10, D1; log 1); the field
positions are the literals of `decode`, `encode` and `Instr.careMask` (D2; log 2). -/

namespace Sys2Proof

/-- The 16 opcode values (R95); the two reserved ones are named after their number. -/
inductive Opcode where
  | br | add | ld | st | jsr | and | ldr | str | reserved8 | not | ldi | sti | jmp | reservedD | lea | trap
deriving DecidableEq, Repr

/-- `ir[15:12]` of each opcode (R95). -/
def Opcode.number : Opcode → BitVec 4
  | .br        => 0b0000
  | .add       => 0b0001
  | .ld        => 0b0010
  | .st        => 0b0011
  | .jsr       => 0b0100
  | .and       => 0b0101
  | .ldr       => 0b0110
  | .str       => 0b0111
  | .reserved8 => 0b1000
  | .not       => 0b1001
  | .ldi       => 0b1010
  | .sti       => 0b1011
  | .jmp       => 0b1100
  | .reservedD => 0b1101
  | .lea       => 0b1110
  | .trap      => 0b1111

/-- All 16 opcodes. -/
def Opcode.all : List Opcode :=
  [.br, .add, .ld, .st, .jsr, .and, .ldr, .str, .reserved8, .not, .ldi, .sti, .jmp, .reservedD, .lea, .trap]

/-- The opcode with this number: every 4-bit value is one (R95, R123). -/
def Opcode.ofBits (b : BitVec 4) : Opcode :=
  (Opcode.all.find? fun o => o.number == b).getD .trap

theorem Opcode.ofBits_number (o : Opcode) : Opcode.ofBits o.number = o := by
  cases o <;> decide

theorem Opcode.number_ofBits : ∀ b : BitVec 4, (Opcode.ofBits b).number = b := by
  decide

/-- `ir[15:12]` (R91). -/
def opcodeOf (ir : Word) : Opcode := Opcode.ofBits (ir.extractLsb' 12 4)

/-- The register field whose lowest bit is `lo` (R94). -/
def regField (lo : Nat) (ir : Word) : Reg := (ir.extractLsb' lo 3).toFin

/-- The three bits that name a register. -/
def regBits (r : Reg) : BitVec 3 := BitVec.ofFin r

/-- Decoding (R92, R94, R95, R97, R98, R99). Ignored bits are not looked at (R93); the reserved opcodes decode
to the two illegal instructions (R101). -/
def decode (ir : Word) : Instr :=
  match opcodeOf ir with
  | .br        => .br (ir.extractLsb' 9 3) (ir.extractLsb' 0 9)
  | .add       => if ir.getLsbD 5 then .addImm (regField 9 ir) (regField 6 ir) (ir.extractLsb' 0 5)
                  else .addReg (regField 9 ir) (regField 6 ir) (regField 0 ir)
  | .ld        => .ld (regField 9 ir) (ir.extractLsb' 0 9)
  | .st        => .st (regField 9 ir) (ir.extractLsb' 0 9)
  | .jsr       => if ir.getLsbD 11 then .jsr (ir.extractLsb' 0 11) else .jsrr (regField 6 ir)
  | .and       => if ir.getLsbD 5 then .andImm (regField 9 ir) (regField 6 ir) (ir.extractLsb' 0 5)
                  else .andReg (regField 9 ir) (regField 6 ir) (regField 0 ir)
  | .ldr       => .ldr (regField 9 ir) (regField 6 ir) (ir.extractLsb' 0 6)
  | .str       => .str (regField 9 ir) (regField 6 ir) (ir.extractLsb' 0 6)
  | .reserved8 => .illegal8
  | .not       => .not (regField 9 ir) (regField 6 ir)
  | .ldi       => .ldi (regField 9 ir) (ir.extractLsb' 0 9)
  | .sti       => .sti (regField 9 ir) (ir.extractLsb' 0 9)
  | .jmp       => .jmp (regField 6 ir)
  | .reservedD => .illegalD
  | .lea       => .lea (regField 9 ir) (ir.extractLsb' 0 9)
  | .trap      => .trap (ir.extractLsb' 0 8)

/-- The opcode of an instruction's row (R95). -/
def Instr.opcode : Instr → Opcode
  | .addReg _ _ _ => .add
  | .addImm _ _ _ => .add
  | .andReg _ _ _ => .and
  | .andImm _ _ _ => .and
  | .not _ _ => .not
  | .br _ _ => .br
  | .jmp _ => .jmp
  | .jsr _ => .jsr
  | .jsrr _ => .jsr
  | .ld _ _ => .ld
  | .ldi _ _ => .ldi
  | .ldr _ _ _ => .ldr
  | .lea _ _ => .lea
  | .st _ _ => .st
  | .sti _ _ => .sti
  | .str _ _ _ => .str
  | .trap _ => .trap
  | .illegal8 => .reserved8
  | .illegalD => .reservedD

/-- The operand bits `ir[11:0]` of an instruction (R92). Ignored bits take the standard spelling: ones in NOT
(R144), zeros elsewhere (log 25). -/
def Instr.operandBits : Instr → BitVec 12
  | .addReg d a b => regBits d ++ regBits a ++ 0#1 ++ 0#2 ++ regBits b
  | .addImm d a i => regBits d ++ regBits a ++ 1#1 ++ i
  | .andReg d a b => regBits d ++ regBits a ++ 0#1 ++ 0#2 ++ regBits b
  | .andImm d a i => regBits d ++ regBits a ++ 1#1 ++ i
  | .not d a => regBits d ++ regBits a ++ 0b111111#6
  | .br m o => m ++ o
  | .jmp b => 0#3 ++ regBits b ++ 0#6
  | .jsr o => 1#1 ++ o
  | .jsrr b => 0#1 ++ 0#2 ++ regBits b ++ 0#6
  | .ld d o => regBits d ++ o
  | .ldi d o => regBits d ++ o
  | .ldr d b o => regBits d ++ regBits b ++ o
  | .lea d o => regBits d ++ o
  | .st r o => regBits r ++ o
  | .sti r o => regBits r ++ o
  | .str r b o => regBits r ++ regBits b ++ o
  | .trap v => 0#4 ++ v
  | .illegal8 => 0#12
  | .illegalD => 0#12

/-- The word of an instruction: its opcode number in bits 15:12, its operand bits below (R91, R92). -/
def encode (i : Instr) : Word := i.opcode.number ++ i.operandBits

/-- The bits of an instruction's word that its format names: all but the ignored ones (R93). -/
def Instr.careMask : Instr → Word
  | .addReg _ _ _ => 0xFFE7
  | .addImm _ _ _ => 0xFFFF
  | .andReg _ _ _ => 0xFFE7
  | .andImm _ _ _ => 0xFFFF
  | .not _ _ => 0xFFC0
  | .br _ _ => 0xFFFF
  | .jmp _ => 0xF1C0
  | .jsr _ => 0xFFFF
  | .jsrr _ => 0xF9C0
  | .ld _ _ => 0xFFFF
  | .ldi _ _ => 0xFFFF
  | .ldr _ _ _ => 0xFFFF
  | .lea _ _ => 0xFFFF
  | .st _ _ => 0xFFFF
  | .sti _ _ => 0xFFFF
  | .str _ _ _ => 0xFFFF
  | .trap _ => 0xF0FF
  | .illegal8 => 0xF000
  | .illegalD => 0xF000

/-- The instruction of a table row whose bits are `w`: every instruction is one 16-bit word, no longer and no shorter
(R90, R104), so a row of any other width, or a number that needs more than 16 bits, is no instruction. -/
def decodeTableWord (nbits w : Nat) : Option Instr :=
  if nbits = 16 ∧ w < 65536 then some (decode (BitVec.ofNat 16 w)) else none

end Sys2Proof
end

