-- ==== Sys2Proof/Config.lean ====
section
/-! DEFINITION. What the spec leaves open (spec 00_scope R11): the Boolean parameters, which State carries
so that every statement holds for both values, and the values with no default, which are opaque. The numbers
the spec adopts from general knowledge (R10) are named constants in Decode.lean and Machine/Constants.lean. -/

namespace Sys2Proof

/-- RESET_REGS (R11, R51): what R0..R7 hold at reset. -/
inductive ResetRegs where
  /-- the default: all zero -/
  | zero
  /-- each register holds an arbitrary word, which a claim quantifies over -/
  | arbitrary
deriving DecidableEq, Repr

/-- The Boolean parameters of R11, each with the default the spec decides (D13 to D16; log 11). -/
structure Params where
  /-- JSRR_BASE_FIRST (R153): JSRR reads its base register before R7 is written. -/
  jsrrBaseFirst : Bool := false
  /-- TRAP_LINKS_R7 (R180): TRAP writes the post-increment pc into R7. -/
  trapLinksR7 : Bool := false
  /-- TRAP_INPUT_SETS_FLAGS (R182, R186): GETC and IN apply setcc to R0. -/
  trapInputSetsFlags : Bool := false
  /-- IN_FALLTHROUGH (R187): IN goes on to run PUTSP. -/
  inFallthrough : Bool := false
deriving DecidableEq, Repr

/-- IN_PROMPT (R186, D17): the prompt that IN writes. The spec leaves it OPEN: a free value (log 12). -/
opaque Config.inPrompt : List Byte

/-- HALT_NOTICE (R189, D18): the notice that HALT writes. The spec leaves it OPEN: a free value (log 12). -/
opaque Config.haltNotice : List Byte

/-- EOF_VALUE (R214, D19): the word delivered at end of input. The spec leaves it OPEN: a free value (log 13). -/
opaque Config.eofValue : Word

end Sys2Proof
end

