-- ==== Sys2Proof/Machine/Constants.lean ====
section
/-! DEFINITION. The numbers the spec fixes or adopts (spec 00_scope R9, R10), each in one place. -/

namespace Sys2Proof.Machine

/-- START_PC: where the first fetch happens (R9, R52). -/
def startPc : Word := 0x3000

/-- KBSR_ADDR: the keyboard-status register's cell (R10, D4; log 4). -/
def kbsrAddr : Word := 0xFE00

/-- KBDR_ADDR: the keyboard-data register's cell (R10, D4; log 4). -/
def kbdrAddr : Word := 0xFE02

/-- What a poll that found a code leaves in KBSR (R66, D9; log 9). -/
def kbsrReady : Word := 0x8000

/-- `cond` holding NEGATIVE: bit 2 (R39, D3; log 3). -/
def condN : BitVec 3 := 0b100

/-- `cond` holding ZERO: bit 1 (R39, D3; log 3). -/
def condZ : BitVec 3 := 0b010

/-- `cond` holding POSITIVE: bit 0 (R39, D3; log 3). -/
def condP : BitVec 3 := 0b001

/-- The link register of JSR and JSRR (R31). -/
def linkReg : Reg := 7

/-- The trap services' argument and result register (R31). -/
def trapReg : Reg := 0

/-- The vector of GETC (R103, D5; log 5). -/
def vecGetc : BitVec 8 := 0x20

/-- The vector of OUT (R103, D5; log 5). -/
def vecOut : BitVec 8 := 0x21

/-- The vector of PUTS (R103, D5; log 5). -/
def vecPuts : BitVec 8 := 0x22

/-- The vector of IN (R103, D5; log 5). -/
def vecIn : BitVec 8 := 0x23

/-- The vector of PUTSP (R103, D5; log 5). -/
def vecPutsp : BitVec 8 := 0x24

/-- The vector of HALT (R103, D5; log 5); every vector not named here halts too (R190). -/
def vecHalt : BitVec 8 := 0x25

end Sys2Proof.Machine
end

