-- ==== Sys2Proof/Machine/State.lean ====
section
/-! DEFINITION. The machine's state as plain data (spec 10_state R30 to R56), the reasons a step can stop, and
the state after reset. -/

namespace Sys2Proof.Machine

/-- One memory cell: its address and its word. The cell is the smallest unit any access moves (R60, R71), so it,
and not the byte, is what memory lists (log 18). -/
abbrev Cell := Nat × Word

/-- Memory (R47, R60): the cells that do not hold zero, by strictly rising address. A cell not listed reads as
0x0000, the value the spec gives every cell no image covers (R55). -/
abbrev Memory := List Cell

/-- The canonical form: addresses strictly rising and below 65536, no listed zero. -/
def Memory.wf (m : Memory) : Bool :=
  decide (m.Pairwise fun c d => c.1 < d.1) && m.all fun c => decide (c.1 < 65536) && decide (c.2 ≠ 0)

/-- The run state (R48). Only RUNNING has cycles; the other three are final (R127). -/
inductive RunState where
  | running
  | halted
  | illegal
  | interrupted
deriving DecidableEq, Repr

/-- Where the engine stands between two steps: the model's own control state, for the hold of GETC and IN (R183)
and the micro-steps of PUTS and PUTSP (R191) (log 15). -/
inductive Phase where
  /-- at a cycle boundary: the next step samples the stop flag and fetches (R120) -/
  | cycle
  /-- GETC is blocked on console input (R183) -/
  | getcWait
  /-- IN has written its prompt and is blocked on console input (R183, R186) -/
  | inWait
  /-- PUTS is about to read the cell at `addr` (R185) -/
  | puts (addr : Word)
  /-- PUTSP is about to read the cell at `addr` (R188) -/
  | putsp (addr : Word)
deriving DecidableEq, Repr

/-- A code the console delivers (R214): an 8-bit code unit, or the report that the input is at its end. -/
inductive Code where
  | unit (c : Byte)
  | endOfInput
deriving DecidableEq, Repr

/-- A stream of what the host has to give, next first, as plain data: the listed items, then those of `again` over
and over; an empty `again` gives nothing more. So a stream may end or go on for ever (log 14). -/
structure Feed (α : Type) where
  listed : List α := []
  again : List α := []
deriving DecidableEq, Repr

/-- The whole machine: the core's state (R30, R35, R39, R47, R48), the host-side state it observes (R49), the
host's coming answers (R129, R214), the engine's phase, and the parameters (R11). -/
structure State where
  /-- R0..R7 (R30) -/
  regs : Vector Word 8
  /-- the program counter (R35) -/
  pc : Word
  /-- the condition code (R39) -/
  cond : BitVec 3
  /-- memory, KBSR and KBDR among its cells (R45, R46, R47) -/
  mem : Memory
  /-- the run state (R48) -/
  run : RunState
  /-- where the engine stands between steps (log 15) -/
  phase : Phase
  /-- the Boolean parameters (R11); no step changes them (log 11) -/
  params : Params
  /-- the console output written so far, oldest byte first (R49) -/
  out : List Byte
  /-- the console input: the codes not yet taken, next one first (R49) -/
  input : Feed Code
  /-- for each coming ask of a code, by poll or by read, whether the host delivers then; at its end: it does not
  (R70, R214; log 14) -/
  ready : Feed Bool
  /-- the stop flag (R49, R206) -/
  stop : Bool
  /-- for each coming sample of the stop flag, whether the host has set it by then; none listed: it does not set it
  (R206, R214; log 14) -/
  stops : List Bool
deriving DecidableEq, Repr

/-- Why a step answers no next state. All three say that the run has already ended, in a final state, which "has
no cycle" (R127); the step raises them, no instruction does. Safe: nothing is claimed to follow a final state. -/
inductive Fault where
  /-- `step` at run = HALTED: the HALT service has ended the run (R201). Safe. -/
  | halted
  /-- `step` at run = ILLEGAL: an illegal instruction has ended the run; `ir` is its word and `addr` its address,
  `pc - 1` (R200, R203; log 17). Safe. -/
  | illegalInstruction (ir addr : Word)
  /-- `step` at run = INTERRUPTED: a stop request has ended the run (R207, R208). Safe. -/
  | interrupted
deriving DecidableEq, Repr

/-- Why an instruction has no meaning in the model. -/
inductive Refusal where
  /-- An arm of `exec` not written yet; no arm raises it now. Safe. -/
  | notModelled (mnemonic : String)
deriving DecidableEq, Repr

/-- The outcome of one step or one instruction. -/
abbrev Result := Host.Outcome State Fault Refusal

/-- The machine right after reset with no image loaded and no host input (R231): pc at START_PC (R52), RUNNING
(R54), memory zero (R55), output empty and stop flag false (R56); registers zero (R51, D6; log 6), cond Z (R53,
D7; log 7), default parameters (R11; log 11), no host answer listed (log 14). -/
def State.reset : State where
  regs := Vector.replicate 8 0
  pc := startPc
  cond := condZ
  mem := []
  run := .running
  phase := .cycle
  params := {}
  out := []
  input := {}
  ready := {}
  stop := false
  stops := []

end Sys2Proof.Machine
end

