-- ==== Sys2Proof/Machine/Ops.lean ====
section
/-! DEFINITION. The named operations over the state: single-field updates, memory, the console and stop ports,
the memory-mapped keyboard, fetch, and the ends of a run (spec 00_scope R16 to R20, 20_memory, 60_exceptions). -/

namespace Sys2Proof.Machine

/-! ### Registers and single fields -/

/-- `x[i]` (R16, R30). -/
def State.reg (s : State) (r : Reg) : Word := s.regs.get r

/-- `x[i] <- v` (R16); no register is hard-wired (R30). -/
def State.setReg (s : State) (r : Reg) (v : Word) : State := { s with regs := s.regs.set r.val v r.isLt }

/-- `pc <- v` (R16). -/
def State.setPc (s : State) (v : Word) : State := { s with pc := v }

/-- `cond <- c` (R16). -/
def State.setCond (s : State) (c : BitVec 3) : State := { s with cond := c }

/-- Replaces memory. -/
def State.setMem (s : State) (m : Memory) : State := { s with mem := m }

/-- `run <- r` (R48). -/
def State.setRun (s : State) (r : RunState) : State := { s with run := r }

/-- Moves the engine to a phase. -/
def State.setPhase (s : State) (p : Phase) : State := { s with phase := p }

/-! ### Memory cells -/

/-- The value of a cell: the listed one, else zero (R47, R55). -/
def Memory.read : Memory → Nat → Word
  | [], _ => 0
  | (k, v) :: rest, a => if k = a then v else Memory.read rest a

/-- Memory without any listing of cell `a`. -/
def Memory.erase (m : Memory) (a : Nat) : Memory := m.filter fun c => decide (c.1 ≠ a)

/-- Lists a cell at its place in the rising order. -/
def Memory.insert (a : Nat) (v : Word) : Memory → Memory
  | [] => [(a, v)]
  | (k, w) :: rest => if a < k then (a, v) :: (k, w) :: rest else (k, w) :: Memory.insert a v rest

/-- `mem[a] <- v`, keeping the canonical form: a zero is not listed (R55). -/
def Memory.write (m : Memory) (a : Nat) (v : Word) : Memory :=
  if v = 0 then m.erase a else (m.erase a).insert a v

/-- The contents of cell `a`, inspected without a read's side effect (R232). -/
def State.cell (s : State) (a : Word) : Word := s.mem.read a.toNat

/-- `MemWrite(a, 1, v)`: a plain store at every address, KBSR and KBDR included (R64, R68). -/
def memWrite (a v : Word) (s : State) : State := s.setMem (s.mem.write a.toNat v)

/-! ### The console and stop ports -/

/-- A console code as the word delivered to the core: a code unit zero-extended, or EOF_VALUE (R214, D19). -/
def Code.word : Code → Word
  | .unit c => c.zeroExtend 16
  | .endOfInput => Config.eofValue

/-- The next item of a stream; none at its end. -/
def Feed.head? {α : Type} (f : Feed α) : Option α :=
  match f.listed with
  | [] => f.again.head?
  | a :: _ => some a

/-- The stream once its next item is used up. -/
def Feed.tail {α : Type} (f : Feed α) : Feed α :=
  match f.listed with
  | [] => { f with listed := f.again.tail }
  | _ :: rest => { f with listed := rest }

/-- The code the host delivers at the next ask, if it delivers one (R214): it may decline whatever the input holds,
and what it delivers is the next code of the input stream. -/
def State.offered (s : State) : Option Code := if s.ready.head? = some true then s.input.head? else none

/-- The host is asked for a code: its answer is used up, and a delivered code is taken from the input, never to be
given again (R214). -/
def takeCode (s : State) : Option Word × State :=
  let s1 := { s with ready := s.ready.tail }
  match s.offered with
  | none => (none, s1)
  | some c => (some c.word, { s1 with input := s.input.tail })

/-- `ConsolePoll()`: asks without waiting (R19, R70). -/
def consolePoll (s : State) : Option Word × State := takeCode s

/-- One attempt of `ConsoleRead()`: `none` when the host still delays its answer (R19, R183). -/
def consoleRead (s : State) : Option Word × State := takeCode s

/-- `ConsoleWrite(b)`: appends one byte to the output (R19, R49). -/
def consoleWrite (b : Byte) (s : State) : State := { s with out := s.out ++ [b] }

/-- `ConsoleWrite` of each byte of a string, in order. -/
def consoleWriteAll (bs : List Byte) (s : State) : State := { s with out := s.out ++ bs }

/-- `ConsoleFlush()`: a duty of the host that changes nothing in the output sequence (R181, D27; log 23). -/
def consoleFlush (s : State) : State := s

/-- `StopRequested()`: one sample of the stop flag, which the host may have set by now and never clears (R20,
R206, R214). -/
def stopRequested (s : State) : Bool × State :=
  match s.stops with
  | [] => (s.stop, s)
  | b :: answers => (s.stop || b, { s with stop := s.stop || b, stops := answers })

/-! ### The memory-mapped keyboard and reads -/

/-- `KeyboardPoll()` (R66): KBSR is rewritten whole; KBDR only when a code was found. -/
def keyboardPoll (s : State) : State :=
  match consolePoll s with
  | (some c, s1) => memWrite kbdrAddr c (memWrite kbsrAddr kbsrReady s1)
  | (none, s1) => memWrite kbsrAddr 0 s1

/-- `MemRead(a, 1)`: every read of KBSR polls first, whoever reads (R63, R67). -/
def memRead (a : Word) (s : State) : Word × State :=
  let s1 := if a = kbsrAddr then keyboardPoll s else s
  (s1.cell a, s1)

/-- The fetch and the increment of a cycle (R120, R121, R122): `ir`, and the state with the post-increment pc. -/
def fetch (s : State) : Word × State :=
  let r := memRead s.pc s
  (r.1, r.2.setPc (r.2.pc + 1))

/-! ### The ends of a run -/

/-- `raise IllegalInstruction`: taking the one exception there is. Nothing is saved, no handler runs, and nothing
but `run` changes (R200, R202, R203). There is no return from it, and no return instruction (R202). -/
def raiseIllegal (s : State) : State := s.setRun .illegal

/-- `halt()` (R201). -/
def halt (s : State) : State := s.setRun .halted

/-- A stop request is taken: the run ends and a blocked service is given up (R207, R208). -/
def interrupt (s : State) : State := (s.setRun .interrupted).setPhase .cycle

/-- What `step` reports in an ILLEGAL state: the illegal word and its address, `pc - 1` (R200). The cell still
holds the word that was fetched, since nothing has changed memory after the fetch (log 17). -/
def illegalReport (s : State) : Fault := .illegalInstruction (s.cell (s.pc - 1)) (s.pc - 1)

end Sys2Proof.Machine
end

