-- ==== Sys2Proof/Machine/Operands.lean ====
section
/-! DEFINITION. Operand forms: extension, byte fields, and the addressing modes (spec 00_scope R14, R15,
30_encoding R94, 43_load_store R167). `pc` is the post-increment pc throughout (R36, R122). -/

namespace Sys2Proof.Machine

/-- `sext_N(v)` (R14). -/
def sext {n : Nat} (v : BitVec n) : Word := v.signExtend 16

/-- `w[7:0]`. -/
def loByte (w : Word) : Byte := w.extractLsb' 0 8

/-- `w[15:8]`. -/
def hiByte (w : Word) : Byte := w.extractLsb' 8 8

/-- PC-relative address: `pc + sext_N(offset)`, wrapping (R62, R167). -/
def pcRelative {n : Nat} (offset : BitVec n) (s : State) : Word := s.pc + sext offset

/-- Base+offset address: `x[base] + sext_6(offset6)`, wrapping (R62, R167). -/
def baseOffset (base : Reg) (offset6 : BitVec 6) (s : State) : Word := s.reg base + sext offset6

/-- Indirect address: the pointer read at the PC-relative address, which polls when it is KBSR (R67, R167). -/
def indirect (offset9 : BitVec 9) (s : State) : Word × State := memRead (pcRelative offset9 s) s

end Sys2Proof.Machine
end

