-- ==== Sys2Proof/Machine/Flags.lean ====
section
/-! DEFINITION. The condition code (spec 10_state R39 to R42). -/

namespace Sys2Proof.Machine

/-- The flag of a value: ZERO, NEGATIVE by bit 15, else POSITIVE (R40). -/
def condOf (v : Word) : BitVec 3 :=
  if v = 0 then condZ else if v.getLsbD 15 then condN else condP

/-- `setcc(v)`, the source's `update_flags` (R40). -/
def setcc (v : Word) (s : State) : State := s.setCond (condOf v)

/-- The end of every flag-updating instruction: the destination takes `v` and cond describes `v` (R41, R42). -/
def writeResult (dst : Reg) (v : Word) (s : State) : State := setcc v (s.setReg dst v)

end Sys2Proof.Machine
end

