-- ==== Sys2Proof/Machine/Control.lean ====
section
/-! DEFINITION. BR, JMP, JSR and JSRR (spec 42_control). None writes cond (R41). -/

namespace Sys2Proof.Machine

/-- BR (R150): taken when the mask and cond share a flag. -/
def execBr (mask : BitVec 3) (offset9 : BitVec 9) (s : State) : Result :=
  .next (if mask &&& s.cond ≠ 0 then s.setPc (pcRelative offset9 s) else s)

/-- JMP, and RET (R151). -/
def execJmp (base : Reg) (s : State) : Result :=
  .next (s.setPc (s.reg base))

/-- JSR (R152): the link, then the PC-relative target. -/
def execJsr (offset11 : BitVec 11) (s : State) : Result :=
  .next ((s.setReg linkReg s.pc).setPc (pcRelative offset11 s))

/-- JSRR (R153): by default the base is read after the link is written, as the source orders the two; with
JSRR_BASE_FIRST, before. -/
def execJsrr (base : Reg) (s : State) : Result :=
  let linked := s.setReg linkReg s.pc
  .next (linked.setPc (if s.params.jsrrBaseFirst then s.reg base else linked.reg base))

end Sys2Proof.Machine
end

