-- ==== Sys2Proof/Machine/Illegal.lean ====
section
/-! DEFINITION. The two reserved opcodes (spec 40_cycle R126): each takes the IllegalInstruction exception. -/

namespace Sys2Proof.Machine

/-- Opcode 0b1000 (R126): illegal here, not a return from interrupt (R202). -/
def execIllegal8 (s : State) : Result := .next (raiseIllegal s)

/-- Opcode 0b1101 (R126). -/
def execIllegalD (s : State) : Result := .next (raiseIllegal s)

end Sys2Proof.Machine
end

