-- ==== Sys2Proof/Machine/LoadStore.lean ====
section
/-! DEFINITION. LD, LDI, LDR, LEA, ST, STI and STR (spec 43_load_store). No base register is modified. -/

namespace Sys2Proof.Machine

/-- The end of every load: read the cell, then write the result and its flag. -/
def loadInto (dst : Reg) (a : Word) (s : State) : State :=
  let r := memRead a s
  writeResult dst r.1 r.2

/-- LD (R160). -/
def execLd (dst : Reg) (offset9 : BitVec 9) (s : State) : Result :=
  .next (loadInto dst (pcRelative offset9 s) s)

/-- LDI (R161): the pointer, then the data; each read may poll. -/
def execLdi (dst : Reg) (offset9 : BitVec 9) (s : State) : Result :=
  let p := indirect offset9 s
  .next (loadInto dst p.1 p.2)

/-- LDR (R162). -/
def execLdr (dst base : Reg) (offset6 : BitVec 6) (s : State) : Result :=
  .next (loadInto dst (baseOffset base offset6 s) s)

/-- LEA (R163): no memory access; sets cond. -/
def execLea (dst : Reg) (offset9 : BitVec 9) (s : State) : Result :=
  .next (writeResult dst (pcRelative offset9 s) s)

/-- ST (R164). -/
def execSt (src : Reg) (offset9 : BitVec 9) (s : State) : Result :=
  .next (memWrite (pcRelative offset9 s) (s.reg src) s)

/-- STI (R165): the pointer read may poll; the store is plain. -/
def execSti (src : Reg) (offset9 : BitVec 9) (s : State) : Result :=
  let p := indirect offset9 s
  .next (memWrite p.1 (p.2.reg src) p.2)

/-- STR (R166). -/
def execStr (src base : Reg) (offset6 : BitVec 6) (s : State) : Result :=
  .next (memWrite (baseOffset base offset6 s) (s.reg src) s)

end Sys2Proof.Machine
end

