-- ==== Sys2Proof/Machine/Operate.lean ====
section
/-! DEFINITION. ADD, AND and NOT (spec 41_operate). Sources are read before the destination is written (R33). -/

namespace Sys2Proof.Machine

/-- ADD, register mode (R140). -/
def execAddReg (dst src1 src2 : Reg) (s : State) : Result :=
  .next (writeResult dst (s.reg src1 + s.reg src2) s)

/-- ADD, immediate mode (R141). -/
def execAddImm (dst src1 : Reg) (imm5 : BitVec 5) (s : State) : Result :=
  .next (writeResult dst (s.reg src1 + sext imm5) s)

/-- AND, register mode (R142). -/
def execAndReg (dst src1 src2 : Reg) (s : State) : Result :=
  .next (writeResult dst (s.reg src1 &&& s.reg src2) s)

/-- AND, immediate mode (R143). -/
def execAndImm (dst src1 : Reg) (imm5 : BitVec 5) (s : State) : Result :=
  .next (writeResult dst (s.reg src1 &&& sext imm5) s)

/-- NOT (R144). -/
def execNot (dst src : Reg) (s : State) : Result :=
  .next (writeResult dst (~~~ s.reg src) s)

end Sys2Proof.Machine
end

