-- ==== Sys2Proof/Machine/Trap.lean ====
section
/-! DEFINITION. TRAP and the trap dispatcher's services (spec 44_trap). A service that waits (GETC, IN) or walks
memory (PUTS, PUTSP) leaves the engine in a phase that later steps continue: one step for each hold, one step for
each cell read (R183, R191; log 15). -/

namespace Sys2Proof.Machine

/-! ### Input -/

/-- What GETC and IN do with the code in the end: R0 takes it, and cond too under TRAP_INPUT_SETS_FLAGS (R182,
R186). -/
def storeInput (c : Word) (s : State) : State :=
  let s1 := s.setReg trapReg c
  if s1.params.trapInputSetsFlags then setcc (s1.reg trapReg) s1 else s1

/-- GETC once the host has delivered a code (R182). -/
def finishGetc (c : Word) (s : State) : State := (storeInput c s).setPhase .cycle

/-- GETC (R182): the first attempt of its read; if the host delays, the core waits (R183). -/
def trapGetc (s : State) : State :=
  match consoleRead s with
  | (some c, s1) => finishGetc c s1
  | (none, s1) => s1.setPhase .getcWait

/-! ### Output -/

/-- OUT (R184). -/
def trapOut (s : State) : State := consoleFlush (consoleWrite (loByte (s.reg trapReg)) s)

/-- One micro-step of PUTS at address `a` (R185, R191): read the cell; a zero cell ends the service, any other
writes its low byte and the service goes on at the next address. -/
def putsCell (a : Word) (s : State) : State :=
  let r := memRead a s
  if r.1 = 0 then (consoleFlush r.2).setPhase .cycle
  else (consoleWrite (loByte r.1) r.2).setPhase (.puts (a + 1))

/-- PUTS (R185): from the address in R0. -/
def trapPuts (s : State) : State := putsCell (s.reg trapReg) s

/-- One micro-step of PUTSP at address `a` (R188, R191): read the cell; the low byte is first; a zero byte ends
the service. -/
def putspCell (a : Word) (s : State) : State :=
  let r := memRead a s
  if loByte r.1 = 0 then (consoleFlush r.2).setPhase .cycle
  else
    let s1 := consoleWrite (loByte r.1) r.2
    if hiByte r.1 = 0 then (consoleFlush s1).setPhase .cycle
    else (consoleWrite (hiByte r.1) s1).setPhase (.putsp (a + 1))

/-- PUTSP (R188): from the address in R0. -/
def trapPutsp (s : State) : State := putspCell (s.reg trapReg) s

/-! ### IN and HALT -/

/-- IN once the host has delivered a code (R186): echo, store, and under IN_FALLTHROUGH go on with PUTSP (R187). -/
def finishIn (c : Word) (s : State) : State :=
  let s1 := (storeInput c (consoleFlush (consoleWrite (loByte c) s))).setPhase .cycle
  if s1.params.inFallthrough then trapPutsp s1 else s1

/-- IN (R186): the prompt, then the first attempt of its read; if the host delays, the core waits (R183). -/
def trapIn (s : State) : State :=
  match consoleRead (consoleFlush (consoleWriteAll Config.inPrompt s)) with
  | (some c, s1) => finishIn c s1
  | (none, s1) => s1.setPhase .inWait

/-- HALT (R189), and every unrecognised vector (R190). -/
def trapHalt (s : State) : State := halt (consoleFlush (consoleWriteAll Config.haltNotice s))

/-! ### A waiting core -/

/-- One hold of a blocked read (R183, R208): a stop request ends the run at once; a delivered code lets the service
finish; otherwise the core keeps waiting, its state unchanged. -/
def awaitCode (finish : Word → State → State) (s : State) : State :=
  match stopRequested s with
  | (true, s1) => interrupt s1
  | (false, s1) =>
    match consoleRead s1 with
    | (some c, s2) => finish c s2
    | (none, s2) => s2

/-! ### The instruction -/

/-- The service a vector selects (R180, R190). -/
def trapService (v : BitVec 8) (s : State) : State :=
  if v = vecGetc then trapGetc s
  else if v = vecOut then trapOut s
  else if v = vecPuts then trapPuts s
  else if v = vecIn then trapIn s
  else if v = vecPutsp then trapPutsp s
  else if v = vecHalt then trapHalt s
  else trapHalt s

/-- TRAP (R180): the link under TRAP_LINKS_R7, then the service. -/
def execTrap (vector : BitVec 8) (s : State) : Result :=
  .next (trapService vector (if s.params.trapLinksR7 then s.setReg linkReg s.pc else s))

end Sys2Proof.Machine
end

