-- ==== Sys2Proof/Machine/Dispatch.lean ====
section
/-! DEFINITION. The dispatch (spec 40_cycle R120, R123): one arm per instruction. -/

namespace Sys2Proof.Machine

def exec (i : Instr) (s : State) : Host.Outcome State Fault Refusal :=
  match i with
  | .addReg dst src1 src2 => Sys2Proof.Machine.execAddReg dst src1 src2 s
  | .addImm dst src1 imm5 => Sys2Proof.Machine.execAddImm dst src1 imm5 s
  | .andReg dst src1 src2 => Sys2Proof.Machine.execAndReg dst src1 src2 s
  | .andImm dst src1 imm5 => Sys2Proof.Machine.execAndImm dst src1 imm5 s
  | .not dst src => Sys2Proof.Machine.execNot dst src s
  | .br mask offset9 => Sys2Proof.Machine.execBr mask offset9 s
  | .jmp base => Sys2Proof.Machine.execJmp base s
  | .jsr offset11 => Sys2Proof.Machine.execJsr offset11 s
  | .jsrr base => Sys2Proof.Machine.execJsrr base s
  | .ld dst offset9 => Sys2Proof.Machine.execLd dst offset9 s
  | .ldi dst offset9 => Sys2Proof.Machine.execLdi dst offset9 s
  | .ldr dst base offset6 => Sys2Proof.Machine.execLdr dst base offset6 s
  | .lea dst offset9 => Sys2Proof.Machine.execLea dst offset9 s
  | .st src offset9 => Sys2Proof.Machine.execSt src offset9 s
  | .sti src offset9 => Sys2Proof.Machine.execSti src offset9 s
  | .str src base offset6 => Sys2Proof.Machine.execStr src base offset6 s
  | .trap vector => Sys2Proof.Machine.execTrap vector s
  | .illegal8 => Sys2Proof.Machine.execIllegal8 s
  | .illegalD => Sys2Proof.Machine.execIllegalD s

end Sys2Proof.Machine
end

