-- ==== Sys2Proof/Machine/Step.lean ====
section
/-! DEFINITION. One step: a cycle (spec 40_cycle R120), a hold of a waiting service (44_trap R183), or one cell of
a string service (R191). -/

namespace Sys2Proof.Machine

/-- One step of the machine. A final state has none: the fault names the end of the run (R127; log 17). -/
def step (s : State) : Host.Outcome State Fault Refusal :=
  match s.run with
  | .running =>
    match s.phase with
    | .cycle =>
      match stopRequested s with
      | (true, s1) => .next (interrupt s1)
      | (false, s1) => exec (decode (fetch s1).1) (fetch s1).2
    | .getcWait => .next (awaitCode finishGetc s)
    | .inWait => .next (awaitCode finishIn s)
    | .puts a => .next (putsCell a s)
    | .putsp a => .next (putspCell a s)
  | .halted => .fault .halted
  | .illegal => .fault (illegalReport s)
  | .interrupted => .fault .interrupted

/-- `s` about to fetch and run the instruction word `w`: the word stands in the cell at `pc`, the engine is running
at a cycle boundary, and no stop is requested there. Only at `pc = KBSR_ADDR` can no word be placed, because the
fetch polls that cell and reads 0x8000 or 0x0000 whatever it held (R82). It stands for the loader (log 19). -/
def State.withFetchWord (s : State) (nbits w : Nat) : State :=
  { s with
    mem := s.mem.write s.pc.toNat (BitVec.ofNat 16 (w % 2 ^ nbits))
    run := .running
    phase := .cycle
    stop := false
    stops := [] }

end Sys2Proof.Machine
end

