-- ==== Sys2Proof/Machine/Loader.lean ====
section
/-! DEFINITION. The loader's contract and the boot order (spec 20_memory R80, 70_reset_and_hazards R230 to R233). -/

namespace Sys2Proof.Machine

/-- One image: its origin and its words (R80). -/
structure Image where
  origin : Word
  words : List Word
deriving DecidableEq, Repr

/-- Big-endian words from a file's bytes (R71, R80); `none` when a byte is left over, which the spec does not
describe (log 21). -/
def wordsOfBytes : List Byte → Option (List Word)
  | [] => some []
  | [_] => none
  | hi :: lo :: rest => (wordsOfBytes rest).map fun ws => (hi ++ lo) :: ws

/-- An image from a file's bytes: a big-endian origin, then the word stream (R71, R80). -/
def imageOfBytes (bytes : List Byte) : Option Image :=
  match wordsOfBytes bytes with
  | some (o :: ws) => some { origin := o, words := ws }
  | _ => none

/-- The words from address `a` upward, in order; those beyond address 65535 are dropped, not wrapped (R80). -/
def storeWords : Nat → List Word → Memory → Memory
  | _, [], m => m
  | a, w :: ws, m => storeWords (a + 1) ws (if a ≤ 0xFFFF then m.write a w else m)

/-- The images in argument order: the last write wins (R80). -/
def loadImages : List Image → Memory → Memory
  | [], m => m
  | i :: rest, m => loadImages rest (storeWords i.origin.toNat i.words m)

/-- What is fixed before the first cycle, apart from the images: the parameters (R11), the registers when
RESET_REGS = arbitrary (R51), and the host's input and coming answers (R56, R214). -/
structure Setup where
  params : Params
  resetRegs : ResetRegs
  /-- the registers' values, used only when `resetRegs` is `arbitrary` -/
  regs : Vector Word 8
  input : Feed Code
  ready : Feed Bool
  stops : List Bool
deriving DecidableEq, Repr

/-- The state of the first cycle (R230 items 2 and 3, R231). -/
def State.boot (c : Setup) (images : List Image) : State :=
  { State.reset with
    regs := match c.resetRegs with
      | .zero => State.reset.regs
      | .arbitrary => c.regs
    mem := loadImages images State.reset.mem
    params := c.params
    input := c.input
    ready := c.ready
    stops := c.stops }

/-- How a start ends (R230, R233). -/
inductive BootResult where
  /-- no image path was given -/
  | usageError
  /-- an image could not be opened or read -/
  | loadError
  | started (s : State)
deriving DecidableEq, Repr

/-- All images, or `none` when one cannot be opened or read (R233). -/
def allImages : List (Option Image) → Option (List Image)
  | [] => some []
  | none :: _ => none
  | some i :: rest => (allImages rest).map fun is => i :: is

/-- The boot order (R230): each path's image, `none` for one that cannot be opened or read. -/
def bootWith (c : Setup) (paths : List (Option Image)) : BootResult :=
  match paths with
  | [] => .usageError
  | p :: rest =>
    match allImages (p :: rest) with
    | none => .loadError
    | some images => .started (State.boot c images)

end Sys2Proof.Machine
end

