-- ==== Sys2Proof/Safety.lean ====
section
/-! DEFINITION. The terms claims are stated in: what a step leaves unchanged, what a read of memory does, the end of
a run and its exit status, and the invariant. -/

namespace Sys2Proof.Machine

/-! ### Frames -/

/-- Every general register is unchanged. -/
def SameRegs (s t : State) : Prop := ∀ r : Reg, t.reg r = s.reg r

/-- Every general register but `d` is unchanged. -/
def RegsBut (d : Reg) (s t : State) : Prop := ∀ r : Reg, r ≠ d → t.reg r = s.reg r

/-- Every memory cell is unchanged. -/
def SameCells (s t : State) : Prop := ∀ a : Word, t.cell a = s.cell a

/-- Every memory cell but `a` is unchanged. -/
def CellsBut (a : Word) (s t : State) : Prop := ∀ b : Word, b ≠ a → t.cell b = s.cell b

/-- The stop flag and its coming samples are unchanged. -/
def SameStop (s t : State) : Prop := t.stop = s.stop ∧ t.stops = s.stops

/-- The console input and the host's coming answers about it are unchanged. -/
def SameInput (s t : State) : Prop := t.input = s.input ∧ t.ready = s.ready

/-- Everything of the host's side is unchanged. -/
def SamePorts (s t : State) : Prop := t.out = s.out ∧ SameInput s t ∧ SameStop s t

/-- The run state, the phase and the parameters are unchanged. -/
def SameControl (s t : State) : Prop := t.run = s.run ∧ t.phase = s.phase ∧ t.params = s.params

/-! ### The host's answers and reads of memory -/

/-- A stream after its next `n` items are used up. -/
def Feed.drop {α : Type} : Nat → Feed α → Feed α
  | 0, f => f
  | n + 1, f => f.tail.drop n

/-- The host delivers the next code, as the word `w` (R214). -/
def HostDelivers (s : State) (w : Word) (t : State) : Prop :=
  ∃ c : Code, s.offered = some c ∧ w = c.word ∧ t.input = s.input.tail ∧ t.ready = s.ready.tail

/-- The host delivers no code this time: it declines, or the input holds none (R70, R183, R214). -/
def HostDeclines (s t : State) : Prop := s.offered = none ∧ t.input = s.input ∧ t.ready = s.ready.tail

/-- A `MemRead` of `a` (R63, R65, R66): it answers `v` and leaves `t`. A read of KBSR polls; any other is pure. -/
def ReadsCell (a : Word) (s : State) (v : Word) (t : State) : Prop :=
  v = t.cell a ∧ SameRegs s t ∧ t.pc = s.pc ∧ t.cond = s.cond ∧ SameControl s t ∧ t.out = s.out ∧ SameStop s t ∧
    (a ≠ kbsrAddr → SameCells s t ∧ SameInput s t) ∧
    (a = kbsrAddr →
      (∃ c, HostDelivers s c t ∧ t.cell kbsrAddr = 0x8000 ∧ t.cell kbdrAddr = c ∧
        ∀ b, b ≠ kbsrAddr → b ≠ kbdrAddr → t.cell b = s.cell b) ∨
      (HostDeclines s t ∧ t.cell kbsrAddr = 0 ∧ CellsBut kbsrAddr s t))

/-- Whether a sample of the stop flag finds it set (R206, R207). -/
def StopSeen (s : State) : Prop := s.stop = true ∨ s.stops.head? = some true

/-- One sample of the stop flag: nothing but the flag and its coming samples can differ in `t` (R206). -/
def SamplesStop (s t : State) : Prop :=
  SameRegs s t ∧ t.pc = s.pc ∧ t.cond = s.cond ∧ SameCells s t ∧ t.params = s.params ∧ t.out = s.out ∧ SameInput s t ∧
    (t.stop = true ↔ StopSeen s) ∧ t.stops = s.stops.tail

/-! ### Fields of a word and rows of the table -/

/-- `w[hi:lo]` (R12). -/
def bits (w : Word) (hi lo : Nat) : BitVec (hi - lo + 1) := w.extractLsb' lo (hi - lo + 1)

/-- The register a 3-bit field names (R94, R100). -/
def regOf (b : BitVec 3) : Reg := b.toFin

/-- Every word of a table row (those with `w & mask = pattern`) decodes to the instruction `f w`. -/
def RowDecodes (mask pattern : Word) (f : Word → Instr) : Prop :=
  ∀ w : Word, w &&& mask = pattern → decode w = f w

/-! ### What instructions do -/

/-- `c` is the flag of the value `v` (R40). -/
def FlagOf (v : Word) (c : BitVec 3) : Prop :=
  c = if v = 0 then 0b010#3 else if 0x8000 ≤ v.toNat then 0b100#3 else 0b001#3

/-- From `s` to `t` only a destination register takes `v` and cond its flag (R41). -/
def OnlyResult (d : Reg) (v : Word) (s t : State) : Prop :=
  t.reg d = v ∧ FlagOf v t.cond ∧ RegsBut d s t ∧ t.pc = s.pc ∧ SameCells s t ∧ SamePorts s t ∧ SameControl s t

/-- From `s` to `t` only pc changes, to `v`. -/
def OnlyPc (v : Word) (s t : State) : Prop :=
  t.pc = v ∧ SameRegs s t ∧ t.cond = s.cond ∧ SameCells s t ∧ SamePorts s t ∧ SameControl s t

/-- From `s` to `t` only R7 changes, to the link, and pc, to `v` (R152, R153). -/
def OnlyLinkAndPc (link v : Word) (s t : State) : Prop :=
  t.reg 7 = link ∧ t.pc = v ∧ RegsBut 7 s t ∧ t.cond = s.cond ∧ SameCells s t ∧ SamePorts s t ∧ SameControl s t

/-- From `s` to `t` only the cell `a` changes, to `v` (R64). -/
def OnlyStore (a v : Word) (s t : State) : Prop :=
  t.cell a = v ∧ CellsBut a s t ∧ SameRegs s t ∧ t.pc = s.pc ∧ t.cond = s.cond ∧ SamePorts s t ∧ SameControl s t

/-- From `s` to `t` a load of the cell `a`: the read, then the result. -/
def LoadsCell (d : Reg) (a : Word) (s t : State) : Prop :=
  ∃ v m, ReadsCell a s v m ∧ OnlyResult d v m t

/-- From `s` to `t` only the run state changes, to `r` (R201, R203). -/
def OnlyRun (r : RunState) (s t : State) : Prop :=
  t.run = r ∧ SameRegs s t ∧ t.pc = s.pc ∧ t.cond = s.cond ∧ SameCells s t ∧ SamePorts s t ∧ t.phase = s.phase ∧
    t.params = s.params

/-- The link of a TRAP: R7 takes pc under TRAP_LINKS_R7, and nothing else changes (R180). -/
def TrapLinks (s l : State) : Prop :=
  l.reg 7 = (if s.params.trapLinksR7 then s.pc else s.reg 7) ∧ RegsBut 7 s l ∧ l.pc = s.pc ∧ l.cond = s.cond ∧
    SameCells s l ∧ SamePorts s l ∧ SameControl s l

/-- The register, flag and memory side of GETC and IN storing the word `w` (R182, R186). -/
def InputStored (w : Word) (s t : State) : Prop :=
  t.reg 0 = w ∧ RegsBut 0 s t ∧
    (if s.params.trapInputSetsFlags then FlagOf w t.cond else t.cond = s.cond) ∧
    t.pc = s.pc ∧ SameCells s t ∧ t.run = s.run ∧ t.params = s.params

/-- Registers, pc, cond, memory, run state and parameters are unchanged: what no output service writes (R193). -/
def SameCore (s t : State) : Prop :=
  SameRegs s t ∧ t.pc = s.pc ∧ t.cond = s.cond ∧ SameCells s t ∧ t.run = s.run ∧ t.params = s.params

/-- One micro-step of PUTS at `a` (R185, R191). -/
def PutsMicroStep (a : Word) (s t : State) : Prop :=
  ∃ w m, ReadsCell a s w m ∧ SameCore m t ∧ SameInput m t ∧ SameStop m t ∧
    if w = 0 then t.out = m.out ∧ t.phase = .cycle
    else t.out = m.out ++ [bits w 7 0] ∧ t.phase = .puts (a + 1)

/-- One micro-step of PUTSP at `a` (R188, R191). -/
def PutspMicroStep (a : Word) (s t : State) : Prop :=
  ∃ w m, ReadsCell a s w m ∧ SameCore m t ∧ SameInput m t ∧ SameStop m t ∧
    if bits w 7 0 = 0 then t.out = m.out ∧ t.phase = .cycle
    else if bits w 15 8 = 0 then t.out = m.out ++ [bits w 7 0] ∧ t.phase = .cycle
    else t.out = m.out ++ [bits w 7 0, bits w 15 8] ∧ t.phase = .putsp (a + 1)

/-! ### Which parts an instruction may write -/

/-- The destination of a flag-updating instruction (R23, R41). -/
def flagDst : Instr → Option Reg
  | .addReg d _ _ => some d
  | .addImm d _ _ => some d
  | .andReg d _ _ => some d
  | .andImm d _ _ => some d
  | .not d _ => some d
  | .ld d _ => some d
  | .ldi d _ => some d
  | .ldr d _ _ => some d
  | .lea d _ => some d
  | .br _ _ => none
  | .jmp _ => none
  | .jsr _ => none
  | .jsrr _ => none
  | .st _ _ => none
  | .sti _ _ => none
  | .str _ _ _ => none
  | .trap _ => none
  | .illegal8 => none
  | .illegalD => none

/-- Whether an instruction may write register `r` (R32). -/
def mayWriteReg (p : Params) (r : Reg) : Instr → Bool
  | .jsr _ => decide (r = 7)
  | .jsrr _ => decide (r = 7)
  | .trap v => decide (r = 0 ∧ (v = 0x20 ∨ v = 0x23)) || (p.trapLinksR7 && decide (r = 7))
  | i => decide (flagDst i = some r)

/-- The last word an image puts at address `a`, if any does (R80). -/
def Image.wordAt (i : Image) (a : Nat) : Option Word :=
  if i.origin.toNat ≤ a then i.words[a - i.origin.toNat]? else none

/-! ### The end of a run -/

/-- A final run state (R127). -/
def RunState.final (r : RunState) : Bool := decide (r ≠ .running)

/-- The four error statuses, which the spec leaves OPEN (R211, D22; log 20). -/
structure ExitStatuses where
  usage : Int
  load : Int
  illegal : Int
  interrupted : Int
deriving DecidableEq, Repr

/-- Distinct from each other and from the success status 0 (R211). -/
def ExitStatuses.wf (e : ExitStatuses) : Bool :=
  decide [0, e.usage, e.load, e.illegal, e.interrupted].Nodup

/-- The process exit status of a run that ended in `r` (R211); none while it runs. -/
def exitStatus (e : ExitStatuses) : RunState → Option Int
  | .running => none
  | .halted => some 0
  | .illegal => some e.illegal
  | .interrupted => some e.interrupted

/-- The exit status of a start that fails (R211, R233); none when the machine starts. -/
def bootStatus (e : ExitStatuses) : BootResult → Option Int
  | .usageError => some e.usage
  | .loadError => some e.load
  | .started _ => none

/-! ### The invariant -/

/-- Exactly one flag (R39). -/
def OneHot (c : BitVec 3) : Prop := c = condN ∨ c = condZ ∨ c = condP

/-- A word with a reserved opcode (R101). -/
def ReservedWord (w : Word) : Prop := w.extractLsb' 12 4 = 0b1000#4 ∨ w.extractLsb' 12 4 = 0b1101#4

/-- What holds at reset and after every step: memory canonical, one flag set (R39, R53), no service under way in a
final state, and at `pc - 1` of an ILLEGAL state the illegal word that ended the run (R126, R200). -/
structure State.Inv (s : State) : Prop where
  mem_wf : s.mem.wf = true
  cond_oneHot : OneHot s.cond
  final_cycle : s.run ≠ .running → s.phase = .cycle
  illegal_word : s.run = .illegal → ReservedWord (s.cell (s.pc - 1))

end Sys2Proof.Machine
end

