-- ==== Sys2Proof/Certificates/Slice0/Obligations.lean ====
section
/-! DEFINITION. The statements for the provers. In the instruction statements the first clause is the encoding the
rule gives, the second the effect: `exec` answers a next state for every state and operands, and what it holds. The
numbers in the encoding clauses, the KBSR and KBDR addresses, the trap vectors and the bits of cond are those the spec
adopts as its decisions D1 to D5 (log 1 to 5). -/

open Sys2Proof Sys2Proof.Machine

/-! ### Encoding -/

/-- The decoder reads every instruction back from the word the encoder writes (R92, R94, R95). -/
def Obligations.DecodeInvertsEncode : Prop :=
  ∀ i : Instr, i.wellFormed = true → decode (encode i) = i

/-- Decoding and encoding again keeps every bit the format names, for all 65536 words (R92, R93, R96). -/
def Obligations.EncodeKeepsEveryNamedBit : Prop :=
  ∀ w : Word, encode (decode w) &&& (decode w).careMask = w &&& (decode w).careMask

/-- Flipping ignored bits never changes the decoded instruction (R93; the spec's decision D12). -/
def Obligations.IgnoredBitsDoNotMatter : Prop :=
  ∀ w x : Word,
    (bits w 15 12 = 0b0001 ∨ bits w 15 12 = 0b0101 → w.getLsbD 5 = false → decode (w ^^^ (x &&& 0x0018)) = decode w) ∧
    (bits w 15 12 = 0b1001 → decode (w ^^^ (x &&& 0x003F)) = decode w) ∧
    (bits w 15 12 = 0b1100 → decode (w ^^^ (x &&& 0x0E3F)) = decode w) ∧
    (bits w 15 12 = 0b0100 → w.getLsbD 11 = false → decode (w ^^^ (x &&& 0x063F)) = decode w) ∧
    (bits w 15 12 = 0b1111 → decode (w ^^^ (x &&& 0x0F00)) = decode w) ∧
    (bits w 15 12 = 0b1000 ∨ bits w 15 12 = 0b1101 → decode (w ^^^ (x &&& 0x0FFF)) = decode w)

/-- The illegal encodings are exactly 0x8000..0x8FFF and 0xD000..0xDFFF (R101; the value 0b1000 is decision D1). -/
def Obligations.IllegalWordsAreTwoRanges : Prop :=
  ∀ w : Word,
    (decode w = .illegal8 ↔ 0x8000 ≤ w.toNat ∧ w.toNat ≤ 0x8FFF) ∧
    (decode w = .illegalD ↔ 0xD000 ≤ w.toNat ∧ w.toNat ≤ 0xDFFF)

/-- One word for each of the 19 rows decodes to its instruction: the words of the worked examples of R126, R140 to
R144, R150 to R153, R160 to R166 and R180, and for opcode 8, which has none, the word 0x8FFF of vector L2-6. The opcode
numbers and field positions are the spec's decisions D1 and D2 (log 1, 2). -/
def Obligations.SampleWordsDecode : Prop :=
  decode 0x1642 = .addReg 3 1 2 ∧ decode 0x1025 = .addImm 0 0 5 ∧ decode 0x5642 = .andReg 3 1 2 ∧
  decode 0x5020 = .andImm 0 0 0 ∧ decode 0x947F = .not 2 1 ∧ decode 0x0402 = .br 0b010 2 ∧ decode 0xC1C0 = .jmp 7 ∧ decode 0x4802 = .jsr 2 ∧
  decode 0x4080 = .jsrr 2 ∧ decode 0x2202 = .ld 1 2 ∧ decode 0xA603 = .ldi 3 3 ∧ decode 0x6200 = .ldr 1 0 0 ∧
  decode 0xE005 = .lea 0 5 ∧ decode 0x3005 = .st 0 5 ∧ decode 0xB201 = .sti 1 1 ∧ decode 0x7401 = .str 2 0 1 ∧
  decode 0xF025 = .trap 0x25 ∧ decode 0x8FFF = .illegal8 ∧ decode 0xD000 = .illegalD

/-! ### Operands, flags and memory -/

/-- Sign extension as R14 writes it, for every width. -/
def Obligations.SignExtensionFillsFromTheTopBit : Prop :=
  ∀ (n : Nat) (v : BitVec n), 1 ≤ n → n ≤ 16 →
    sext v = if v.getLsbD (n - 1) = false then v.zeroExtend 16 else v.zeroExtend 16 ||| ((0xFFFF : Word) <<< n)

/-- setcc sets exactly the flag of the value and changes nothing else (R40). -/
def Obligations.SetccSetsTheFlagOfTheValue : Prop :=
  ∀ (v : Word) (s : State),
    FlagOf v (setcc v s).cond ∧ SameRegs s (setcc v s) ∧ (setcc v s).pc = s.pc ∧ SameCells s (setcc v s) ∧
      SamePorts s (setcc v s) ∧ SameControl s (setcc v s)

/-- A read polls exactly when it reads KBSR, and the poll updates KBSR and KBDR (R63, R66, R67; decisions D9, D10). -/
def Obligations.MemReadPollsOnlyAtKbsr : Prop :=
  ∀ (a : Word) (s : State), ReadsCell a s (memRead a s).1 (memRead a s).2

/-- A read elsewhere returns the cell, changes nothing, and returns the same again after other such reads (R65). -/
def Obligations.OtherReadsArePure : Prop :=
  ∀ (a b : Word) (s : State), a ≠ kbsrAddr → b ≠ kbsrAddr →
    memRead a s = (s.cell a, s) ∧ (memRead a (memRead b (memRead a s).2).2).1 = (memRead a s).1

/-- A write stores the word in its cell and does nothing else, at KBSR and KBDR too (R64, R68; decision D11). -/
def Obligations.MemWriteIsAPlainStore : Prop :=
  ∀ (a v : Word) (s : State), OnlyStore a v s (memWrite a v s)

/-- With one key queued, the first read of KBSR takes it and the second reports not ready, KBDR kept (R69). -/
def Obligations.SecondPollFindsNothing : Prop :=
  ∀ (s : State) (c : Code), s.offered = some c → s.input.tail.head? = none →
    let first := memRead kbsrAddr s
    let second := memRead kbsrAddr first.2
    first.1 = 0x8000 ∧ first.2.cell kbdrAddr = c.word ∧ second.1 = 0 ∧ second.2.cell kbdrAddr = c.word

/-- A canonical memory is determined by what its 65536 cells read as (the model's form, log 18). -/
def Obligations.CanonicalMemoriesAgreeWhenReadsDo : Prop :=
  ∀ m n : Memory, m.wf = true → n.wf = true → (∀ a, a < 65536 → m.read a = n.read a) → m = n

/-- After loading, a cell holds the word the last image covering it gives, else what it held (R80; decision D31). -/
def Obligations.LastLoadedImageWins : Prop :=
  ∀ (is : List Image) (m : Memory) (a : Nat), a < 65536 →
    (loadImages is m).read a = (is.reverse.findSome? (·.wordAt a)).getD (m.read a)

/-! ### Operate -/

/-- ADD, register mode (R140; decision D12 for bits 4:3). -/
def Obligations.AddRegisterAddsTwoRegisters : Prop :=
  RowDecodes 0xF020 0x1000 (fun w => .addReg (regOf (bits w 11 9)) (regOf (bits w 8 6)) (regOf (bits w 2 0))) ∧
  ∀ (s : State) (d a b : Reg), ∃ t, exec (.addReg d a b) s = .next t ∧ OnlyResult d (s.reg a + s.reg b) s t

/-- ADD, immediate mode (R141). -/
def Obligations.AddImmediateAddsTheExtendedField : Prop :=
  RowDecodes 0xF020 0x1020 (fun w => .addImm (regOf (bits w 11 9)) (regOf (bits w 8 6)) (bits w 4 0)) ∧
  ∀ (s : State) (d a : Reg) (imm5 : BitVec 5), ∃ t, exec (.addImm d a imm5) s = .next t ∧
    OnlyResult d (s.reg a + sext imm5) s t

/-- AND, register mode (R142; decision D12 for bits 4:3). -/
def Obligations.AndRegisterMasksTwoRegisters : Prop :=
  RowDecodes 0xF020 0x5000 (fun w => .andReg (regOf (bits w 11 9)) (regOf (bits w 8 6)) (regOf (bits w 2 0))) ∧
  ∀ (s : State) (d a b : Reg), ∃ t, exec (.andReg d a b) s = .next t ∧ OnlyResult d (s.reg a &&& s.reg b) s t

/-- AND, immediate mode (R143). -/
def Obligations.AndImmediateMasksWithTheExtendedField : Prop :=
  RowDecodes 0xF020 0x5020 (fun w => .andImm (regOf (bits w 11 9)) (regOf (bits w 8 6)) (bits w 4 0)) ∧
  ∀ (s : State) (d a : Reg) (imm5 : BitVec 5), ∃ t, exec (.andImm d a imm5) s = .next t ∧
    OnlyResult d (s.reg a &&& sext imm5) s t

/-- NOT (R144; decision D12 for bits 5:0). -/
def Obligations.NotComplementsTheSource : Prop :=
  RowDecodes 0xF000 0x9000 (fun w => .not (regOf (bits w 11 9)) (regOf (bits w 8 6))) ∧
  ∀ (s : State) (d a : Reg), ∃ t, exec (.not d a) s = .next t ∧ OnlyResult d (~~~ s.reg a) s t

/-! ### Control transfer -/

/-- BR (R150; decision D3 for the mask bits): with an empty intersection nothing changes at all. -/
def Obligations.BranchTakenWhenMaskMeetsFlag : Prop :=
  RowDecodes 0xF000 0x0000 (fun w => .br (bits w 11 9) (bits w 8 0)) ∧
  ∀ (s : State) (mask : BitVec 3) (offset9 : BitVec 9), ∃ t, exec (.br mask offset9) s = .next t ∧
    OnlyPc (if mask &&& s.cond ≠ 0 then s.pc + sext offset9 else s.pc) s t

/-- JMP, and RET (R151; decision D12). -/
def Obligations.JumpGoesToTheBaseRegister : Prop :=
  RowDecodes 0xF000 0xC000 (fun w => .jmp (regOf (bits w 8 6))) ∧
  ∀ (s : State) (b : Reg), ∃ t, exec (.jmp b) s = .next t ∧ OnlyPc (s.reg b) s t

/-- JSR (R152). -/
def Obligations.JsrLinksThenGoesPcRelative : Prop :=
  RowDecodes 0xF800 0x4800 (fun w => .jsr (bits w 10 0)) ∧
  ∀ (s : State) (offset11 : BitVec 11), ∃ t, exec (.jsr offset11) s = .next t ∧
    OnlyLinkAndPc s.pc (s.pc + sext offset11) s t

/-- JSRR for both values of JSRR_BASE_FIRST (R153; decision D13): the two differ only at base R7. -/
def Obligations.JsrrLinksThenGoesToTheBase : Prop :=
  RowDecodes 0xF800 0x4000 (fun w => .jsrr (regOf (bits w 8 6))) ∧
  ∀ (s : State) (b : Reg), ∃ t, exec (.jsrr b) s = .next t ∧
    OnlyLinkAndPc s.pc (if b = 7 ∧ s.params.jsrrBaseFirst = false then s.pc else s.reg b) s t

/-! ### Loads and stores -/

/-- LD (R160). What the read does at KBSR, a poll that gives the whole cell 0x8000 or 0 and sets or keeps KBDR by the
host's answer, is that of R63, R66 and R67 and the spec's decisions D8, D9 and D10 (log 8, 9, 10, 14). -/
def Obligations.LdLoadsThePcRelativeCell : Prop :=
  RowDecodes 0xF000 0x2000 (fun w => .ld (regOf (bits w 11 9)) (bits w 8 0)) ∧
  ∀ (s : State) (d : Reg) (offset9 : BitVec 9), ∃ t, exec (.ld d offset9) s = .next t ∧
    LoadsCell d (s.pc + sext offset9) s t

/-- LDI (R161): the pointer is read first, then the data, in the state the first read left. What either read does at
KBSR is that of R63, R66 and R67 and the spec's decisions D8, D9 and D10 (log 8, 9, 10, 14). -/
def Obligations.LdiLoadsThroughThePointer : Prop :=
  RowDecodes 0xF000 0xA000 (fun w => .ldi (regOf (bits w 11 9)) (bits w 8 0)) ∧
  ∀ (s : State) (d : Reg) (offset9 : BitVec 9), ∃ t p m, exec (.ldi d offset9) s = .next t ∧
    ReadsCell (s.pc + sext offset9) s p m ∧ LoadsCell d p m t

/-- LDR (R162). What the read does at KBSR, a poll, is that of R63, R66 and R67 and the spec's decisions D8, D9 and D10
(log 8, 9, 10, 14). -/
def Obligations.LdrLoadsTheBaseOffsetCell : Prop :=
  RowDecodes 0xF000 0x6000 (fun w => .ldr (regOf (bits w 11 9)) (regOf (bits w 8 6)) (bits w 5 0)) ∧
  ∀ (s : State) (d b : Reg) (offset6 : BitVec 6), ∃ t, exec (.ldr d b offset6) s = .next t ∧
    LoadsCell d (s.reg b + sext offset6) s t

/-- LEA (R163): the address itself, with no memory access and no poll, and the flag. -/
def Obligations.LeaLoadsTheAddressAndSetsTheFlag : Prop :=
  RowDecodes 0xF000 0xE000 (fun w => .lea (regOf (bits w 11 9)) (bits w 8 0)) ∧
  ∀ (s : State) (d : Reg) (offset9 : BitVec 9), ∃ t, exec (.lea d offset9) s = .next t ∧
    OnlyResult d (s.pc + sext offset9) s t

/-- ST (R164). -/
def Obligations.StStoresToThePcRelativeCell : Prop :=
  RowDecodes 0xF000 0x3000 (fun w => .st (regOf (bits w 11 9)) (bits w 8 0)) ∧
  ∀ (s : State) (r : Reg) (offset9 : BitVec 9), ∃ t, exec (.st r offset9) s = .next t ∧
    OnlyStore (s.pc + sext offset9) (s.reg r) s t

/-- STI (R165): the pointer is read first; the store is plain. What the pointer's read does at KBSR, a poll, is that of
R63, R66 and R67 and the spec's decisions D8, D9 and D10 (log 8, 9, 10, 14). -/
def Obligations.StiStoresThroughThePointer : Prop :=
  RowDecodes 0xF000 0xB000 (fun w => .sti (regOf (bits w 11 9)) (bits w 8 0)) ∧
  ∀ (s : State) (r : Reg) (offset9 : BitVec 9), ∃ t p m, exec (.sti r offset9) s = .next t ∧
    ReadsCell (s.pc + sext offset9) s p m ∧ OnlyStore p (s.reg r) m t

/-- STR (R166). -/
def Obligations.StrStoresToTheBaseOffsetCell : Prop :=
  RowDecodes 0xF000 0x7000 (fun w => .str (regOf (bits w 11 9)) (regOf (bits w 8 6)) (bits w 5 0)) ∧
  ∀ (s : State) (r b : Reg) (offset6 : BitVec 6), ∃ t, exec (.str r b offset6) s = .next t ∧
    OnlyStore (s.reg b + sext offset6) (s.reg r) s t

/-- The reserved opcodes (R126, R203; the value 0b1000 is decision D1): the run ends and nothing else changes. -/
def Obligations.ReservedOpcodesEndTheRun : Prop :=
  RowDecodes 0xF000 0x8000 (fun _ => .illegal8) ∧ RowDecodes 0xF000 0xD000 (fun _ => .illegalD) ∧
  ∀ s : State, (∃ t, exec .illegal8 s = .next t ∧ OnlyRun .illegal s t) ∧
    (∃ t, exec .illegalD s = .next t ∧ OnlyRun .illegal s t)

/-! ### TRAP and its services -/

/-- Bits 11:8 of a TRAP word are ignored, the vector is its low byte, and no TRAP is illegal (R103, R180; D12). -/
def Obligations.TrapVectorIsTheLowByte : Prop :=
  RowDecodes 0xF000 0xF000 (fun w => .trap (bits w 7 0)) ∧
  ∀ (v : BitVec 8) (s : State), ∃ t, exec (.trap v) s = .next t ∧ t.pc = s.pc ∧
    (t.run = s.run ∨ t.run = .halted)

/-- GETC when the host delivers: R0 takes the code, with no output (R182; decisions D5, D14, D15, D19). -/
def Obligations.GetcStoresTheDeliveredCode : Prop :=
  ∀ (s : State) (c : Code), s.offered = some c →
    ∃ t l, exec (.trap 0x20) s = .next t ∧ TrapLinks s l ∧ InputStored c.word l t ∧
      t.out = s.out ∧ t.input = s.input.tail ∧ t.ready = s.ready.tail ∧ SameStop s t ∧ t.phase = .cycle

/-- GETC and IN when the host delays: the core holds, R0 not written; IN has written its prompt (R183, R186; D30). -/
def Obligations.GetcAndInWaitForInput : Prop :=
  ∀ s : State, s.offered = none →
    (∃ t l, exec (.trap 0x20) s = .next t ∧ TrapLinks s l ∧ SameCore l t ∧ t.out = s.out ∧ HostDeclines s t ∧
      SameStop s t ∧ t.phase = .getcWait) ∧
    (∃ t l, exec (.trap 0x23) s = .next t ∧ TrapLinks s l ∧ SameCore l t ∧ t.out = s.out ++ Config.inPrompt ∧
      HostDeclines s t ∧ SameStop s t ∧ t.phase = .inWait)

/-- OUT writes the low byte of R0 and nothing else (R184; decisions D5, D14). -/
def Obligations.OutWritesTheLowByteOfR0 : Prop :=
  ∀ s : State, ∃ t l, exec (.trap 0x21) s = .next t ∧ TrapLinks s l ∧ SameCore l t ∧
    t.out = s.out ++ [bits (s.reg 0) 7 0] ∧ SameInput s t ∧ SameStop s t ∧ t.phase = s.phase

/-- PUTS reads one cell a step, from R0 upward: a zero cell ends it, any other writes its low byte (R185, R191; the
step boundaries are log 15). -/
def Obligations.PutsWritesOneCellAStep : Prop :=
  (∀ s : State, ∃ t l, exec (.trap 0x22) s = .next t ∧ TrapLinks s l ∧ PutsMicroStep (s.reg 0) l t) ∧
  ∀ (s : State) (a : Word), s.run = .running → s.phase = .puts a → ∃ t, step s = .next t ∧ PutsMicroStep a s t

/-- IN when the host delivers: prompt, echo, R0; it ends there unless IN_FALLTHROUGH, when it goes on as PUTSP at the
code's address (R186, R187; decisions D5, D14 to D17, D19). -/
def Obligations.InPromptsEchoesAndStores : Prop :=
  ∀ (s : State) (c : Code), s.offered = some c →
    ∃ t l m, exec (.trap 0x23) s = .next t ∧ TrapLinks s l ∧ InputStored c.word l m ∧
      m.out = s.out ++ Config.inPrompt ++ [bits c.word 7 0] ∧ m.input = s.input.tail ∧ m.ready = s.ready.tail ∧
      SameStop s m ∧ m.phase = .cycle ∧ if s.params.inFallthrough then PutspMicroStep c.word m t else t = m

/-- PUTSP reads one cell a step: low byte, then high byte, stopping at the first zero byte (R188, R191; log 15). -/
def Obligations.PutspWritesTwoBytesACell : Prop :=
  (∀ s : State, ∃ t l, exec (.trap 0x24) s = .next t ∧ TrapLinks s l ∧ PutspMicroStep (s.reg 0) l t) ∧
  ∀ (s : State) (a : Word), s.run = .running → s.phase = .putsp a → ∃ t, step s = .next t ∧ PutspMicroStep a s t

/-- HALT, and every vector that names no service, writes the notice and ends the run (R189, R190; D5, D14, D18). -/
def Obligations.HaltEndsTheRunWithTheNotice : Prop :=
  ∀ (s : State) (v : BitVec 8), v ≠ 0x20 → v ≠ 0x21 → v ≠ 0x22 → v ≠ 0x23 → v ≠ 0x24 →
    ∃ t l, exec (.trap v) s = .next t ∧ TrapLinks s l ∧ t.run = .halted ∧ SameRegs l t ∧ t.pc = s.pc ∧ t.cond = s.cond ∧
      SameCells s t ∧ t.out = s.out ++ Config.haltNotice ∧ SameInput s t ∧ SameStop s t ∧ t.phase = s.phase ∧
      t.params = s.params

/-- One hold of a waiting GETC or IN (R183, R208; D21, D30): a stop ends the run at once, R0 not written; without a
code the state stays as it is but for the host's used-up answers; with one the service finishes. -/
def Obligations.WaitingCoreHoldsUntilTheHostActs : Prop :=
  ∀ s : State, s.run = .running → s.phase = .getcWait ∨ s.phase = .inWait →
    (StopSeen s → ∃ t, step s = .next t ∧ SamplesStop s t ∧ t.run = .interrupted ∧ t.phase = .cycle) ∧
    (¬ StopSeen s → s.offered = none →
      ∃ t, step s = .next t ∧ SameCore s t ∧ t.out = s.out ∧ HostDeclines s t ∧ t.stop = false ∧
        t.stops = s.stops.tail ∧ t.phase = s.phase) ∧
    (¬ StopSeen s → ∀ c : Code, s.offered = some c →
      ∃ t m, step s = .next t ∧ InputStored c.word s m ∧ m.input = s.input.tail ∧ m.ready = s.ready.tail ∧
        m.stop = false ∧ m.stops = s.stops.tail ∧ m.phase = .cycle ∧
        (s.phase = .getcWait → m.out = s.out ∧ t = m) ∧
        (s.phase = .inWait → m.out = s.out ++ [bits c.word 7 0] ∧
          if s.params.inFallthrough then PutspMicroStep c.word m t else t = m))

/-- PUTS of a string: `n` cells that are not zero and then a zero one, none of them KBSR, are written in order, one
byte each, in `n + 1` steps, and nothing else changes (R185; decision D20). -/
def Obligations.PutsWritesTheWholeString : Prop :=
  ∀ (n : Nat) (s : State) (a : Word), s.run = .running → s.phase = .puts a →
    (∀ i, i < n → a + BitVec.ofNat 16 i ≠ kbsrAddr ∧ s.cell (a + BitVec.ofNat 16 i) ≠ 0) →
    a + BitVec.ofNat 16 n ≠ kbsrAddr → s.cell (a + BitVec.ofNat 16 n) = 0 →
    ∃ t, core.run (n + 1) s = .next t ∧ SameCore s t ∧ SameInput s t ∧ SameStop s t ∧ t.phase = .cycle ∧
      t.out = s.out ++ (List.range n).map fun i => bits (s.cell (a + BitVec.ofNat 16 i)) 7 0

/-- PUTS is not cut short while it meets no zero cell: one byte a step (R191; decision D25; log 15). Where every cell
but KBSR is not zero and the host has a code that is not zero at every ask, as a stream that repeats can (log 14), the
poll keeps KBSR at 0x8000 (D10) and PUTS wraps past it for ever: after any number of steps it is under way still. -/
def Obligations.PutsGoesOnWithoutATerminator : Prop :=
  (∀ (n : Nat) (s : State) (a : Word), s.run = .running → s.phase = .puts a →
    (∀ i, i < n → a + BitVec.ofNat 16 i ≠ kbsrAddr ∧ s.cell (a + BitVec.ofNat 16 i) ≠ 0) →
    ∃ t, core.run n s = .next t ∧ t.run = .running ∧ t.phase = .puts (a + BitVec.ofNat 16 n) ∧
      t.out.length = s.out.length + n) ∧
  ∀ (s : State) (a : Word), s.run = .running → s.phase = .puts a → (∀ b, b ≠ kbsrAddr → s.cell b ≠ 0) →
    (∀ k, (s.ready.drop k).head? = some true ∧ ∃ c : Code, (s.input.drop k).head? = some c ∧ c.word ≠ 0) →
    ∀ n : Nat, ∃ t, core.run n s = .next t ∧ t.run = .running ∧ t.phase = .puts (a + BitVec.ofNat 16 n) ∧
      t.out.length = s.out.length + n

/-- PUTSP always ends: at the latest at KBSR, whose low byte is zero after every poll. It follows from R66, R67 and
R188 and the spec's decisions D9 and D10 together; the spec does not draw this conclusion itself. -/
def Obligations.PutspEndsWithinTheAddressSpace : Prop :=
  ∀ (s : State) (a : Word), s.run = .running → s.phase = .putsp a →
    ∃ k, k ≤ 65536 ∧ ∃ t, core.run k s = .next t ∧ t.run = .running ∧ t.phase = .cycle ∧ SameRegs s t ∧ t.pc = s.pc

/-! ### The cycle and the ends of a run -/

/-- A cycle (R120, R122; decision D21): with a stop requested the run ends before the fetch; otherwise step is exec of
the word that a MemRead at pc gives, decoded, in the state with the post-increment pc. -/
def Obligations.StepRunsTheDecodedInstruction : Prop :=
  ∀ s : State, s.run = .running → s.phase = .cycle →
    (StopSeen s → ∃ t, step s = .next t ∧ SamplesStop s t ∧ t.run = .interrupted ∧ t.phase = .cycle) ∧
    (¬ StopSeen s → ∃ s1 ir m, SamplesStop s s1 ∧ SameControl s s1 ∧ ReadsCell s1.pc s1 ir m ∧
      (decode ir).wellFormed = true ∧ step s = exec (decode ir) (m.setPc (s.pc + 1)))

/-- In a final state there is no next state (R127), and every RUNNING state has one, in a cycle (R120) or in a service
that waits or writes. That what a final state answers is a fault, named after the end, is the model's choice (log 17),
and so is what a step of a service is (log 15). -/
def Obligations.FinalStatesHaveNoStep : Prop :=
  ∀ s : State, (s.run ≠ .running ↔ ∃ f, step s = .fault f) ∧ (s.run = .running ↔ ∃ t, step s = .next t)

/-- An illegal word (R126, R200, R203; D1): the cycle ends in ILLEGAL with pc incremented and nothing else changed, and
the model then reports the word and its address (log 17). -/
def Obligations.IllegalWordIsReportedPrecisely : Prop :=
  ∀ s : State, s.run = .running → s.phase = .cycle → s.stop = false → s.stops = [] → s.pc ≠ kbsrAddr →
    ReservedWord (s.cell s.pc) →
    ∃ t, step s = .next t ∧ t.run = .illegal ∧ t.pc = s.pc + 1 ∧ SameRegs s t ∧ t.cond = s.cond ∧ SameCells s t ∧
      SamePorts s t ∧ step t = .fault (.illegalInstruction (s.cell s.pc) s.pc)

/-- A run ends in HALTED only by a TRAP whose vector is 0x25 or names no service, in ILLEGAL only by a reserved word,
in INTERRUPTED only by a stop request (R201, R203, R207, R208). -/
def Obligations.RunsEndOnlyByTheirThreeEvents : Prop :=
  ∀ s t : State, step s = .next t →
    (t.run = .halted → s.phase = .cycle ∧ ∃ s1 v, SamplesStop s s1 ∧ decode (memRead s.pc s1).1 = .trap v ∧
      v ≠ 0x20 ∧ v ≠ 0x21 ∧ v ≠ 0x22 ∧ v ≠ 0x23 ∧ v ≠ 0x24) ∧
    (t.run = .illegal → s.phase = .cycle ∧ ∃ s1, SamplesStop s s1 ∧ ReservedWord (memRead s.pc s1).1) ∧
    (t.run = .interrupted → StopSeen s ∧ (s.phase = .cycle ∨ s.phase = .getcWait ∨ s.phase = .inWait))

/-- No instruction faults or is refused, whatever the state and operands, and neither does a running step (R200). -/
def Obligations.NothingElseStopsTheMachine : Prop :=
  (∀ (i : Instr) (s : State), ∃ t, exec i s = .next t) ∧ ∀ s : State, s.run = .running → ∃ t, step s = .next t

/-- The exit statuses of the five ends of a run are distinct, HALT's being 0 (R211; decision D22). -/
def Obligations.ExitStatusesTellTheEndsApart : Prop :=
  ∀ e : ExitStatuses, e.wf = true →
    exitStatus e .halted = some 0 ∧
    (∀ r q : RunState, r ≠ .running → exitStatus e r = exitStatus e q → r = q) ∧
    (∀ r : RunState, r ≠ .running → exitStatus e r ≠ bootStatus e .usageError ∧ exitStatus e r ≠ bootStatus e .loadError) ∧
    bootStatus e .usageError ≠ bootStatus e .loadError

/-! ### Reset and boot -/

/-- Whatever is loaded, the machine starts RUNNING at 0x3000 (R52, R54). -/
def Obligations.StartsRunningAtStartPc : Prop :=
  ∀ (c : Setup) (images : List Image), (State.boot c images).pc = 0x3000 ∧ (State.boot c images).run = .running

/-- The rest of the reset state (R51, R53, R55, R56): registers zero or arbitrary, cond Z, uncovered cells zero, output
empty, no stop. Registers, cond and the keyboard cells rest on the spec's decisions D6, D7, D8 (log 6, 7, 8). -/
def Obligations.ResetLeavesTheValuesOfTheTable : Prop :=
  (∀ r : Reg, State.reset.reg r = 0) ∧ State.reset.cond = 0b010 ∧ (∀ a : Word, State.reset.cell a = 0) ∧
  State.reset.pc = 0x3000 ∧ State.reset.run = .running ∧ State.reset.out = [] ∧ State.reset.stop = false ∧
  ∀ (c : Setup) (images : List Image),
    (∀ r : Reg, (State.boot c images).reg r = if c.resetRegs = .zero then 0 else c.regs.get r) ∧
    (State.boot c images).cond = 0b010 ∧ (State.boot c images).out = [] ∧ (State.boot c images).stop = false ∧
    ∀ a : Word, (∀ i ∈ images, i.wordAt a.toNat = none) → (State.boot c images).cell a = 0

/-- The boot order (R230, R233): no path is a usage error, an unreadable image a load error, and only otherwise does the
machine start. -/
def Obligations.BootFailsBeforeTheMachineExists : Prop :=
  ∀ (c : Setup) (paths : List (Option Image)),
    (bootWith c paths = .usageError ↔ paths = []) ∧
    (bootWith c paths = .loadError ↔ none ∈ paths) ∧
    ∀ images : List Image, images ≠ [] → bootWith c (images.map some) = .started (State.boot c images)

/-! ### The whole machine -/

/-- The invariant holds at reset and whatever is loaded. -/
def Obligations.ResetMeetsTheInvariant : Prop :=
  State.reset.Inv ∧ ∀ (c : Setup) (images : List Image), (State.boot c images).Inv

/-- Every step keeps the invariant: memory canonical, one flag set, no service left under way at an end, and the
illegal word still at `pc - 1` (R39, R126; log 15, 17, 18). -/
def Obligations.EveryStepKeepsTheInvariant : Prop :=
  ∀ s t : State, s.Inv → step s = .next t → t.Inv

/-- Only BR, JMP, JSR and JSRR write pc, and what they write (R38; decision D13). -/
def Obligations.OnlyControlTransfersWritePc : Prop :=
  ∀ (i : Instr) (s t : State), exec i s = .next t →
    match i with
    | .br mask offset9 => t.pc = if mask &&& s.cond ≠ 0 then s.pc + sext offset9 else s.pc
    | .jmp b => t.pc = s.reg b
    | .jsr offset11 => t.pc = s.pc + sext offset11
    | .jsrr b => t.pc = if b = 7 ∧ s.params.jsrrBaseFirst = false then s.pc else s.reg b
    | _ => t.pc = s.pc

/-- Only the flag-updating instructions write cond, from the value they leave in their destination; a TRAP may only
under TRAP_INPUT_SETS_FLAGS, from R0 (R41; decision D15). -/
def Obligations.OnlyFlagInstructionsWriteCond : Prop :=
  ∀ (i : Instr) (s t : State), exec i s = .next t →
    match flagDst i with
    | some d => FlagOf (t.reg d) t.cond
    | none => t.cond = s.cond ∨
        (s.params.trapInputSetsFlags = true ∧ (i = .trap 0x20 ∨ i = .trap 0x23) ∧ FlagOf (t.reg 0) t.cond)

/-- A register changes only where the list of R32 allows it (decision D14 for TRAP's link). -/
def Obligations.OnlyListedRegistersChange : Prop :=
  ∀ (i : Instr) (s t : State) (r : Reg), exec i s = .next t → mayWriteReg s.params r i = false → t.reg r = s.reg r

/-- Only BR reads cond: any other instruction does the same whatever cond holds, and its own write of cond, if it makes
one, is the same too (R43). -/
def Obligations.OnlyBranchReadsCond : Prop :=
  ∀ (i : Instr) (s t : State) (c : BitVec 3), (∀ mask offset9, i ≠ .br mask offset9) → exec i s = .next t →
    exec i (s.setCond c) = .next t ∨ (t.cond = s.cond ∧ exec i (s.setCond c) = .next (t.setCond c))

/-- The host's side only moves forward: output is append-only (R49), input is taken in order from the front (R214), the
stop flag is never cleared (R206); and no step changes a parameter (log 11). -/
def Obligations.HostSideOnlyMovesForward : Prop :=
  ∀ s t : State, step s = .next t →
    (∃ new, t.out = s.out ++ new) ∧ (∃ n, t.input = s.input.drop n) ∧ (∃ n, t.ready = s.ready.drop n) ∧
      (s.stop = true → t.stop = true) ∧
      t.params = s.params

/-- Outside PUTS, PUTSP and IN's fall-through into it a trap service changes no cell, and those change no cell but
KBSR and KBDR, by polling (R193; decisions D5, D10, D16). -/
def Obligations.TrapServicesWriteNoMemory : Prop :=
  ∀ (v : BitVec 8) (s t : State), exec (.trap v) s = .next t →
    (∀ a : Word, a ≠ kbsrAddr → a ≠ kbdrAddr → t.cell a = s.cell a) ∧
    (v ≠ 0x22 → v ≠ 0x24 → (v = 0x23 → s.params.inFallthrough = false) → SameCells s t)

/-- A store into the next instruction's cell is what the very next fetch reads (R81, R241). -/
def Obligations.StoreIsSeenByTheNextFetch : Prop :=
  ∀ (s : State) (r : Reg), s.run = .running → s.phase = .cycle → s.stop = false → s.stops = [] →
    s.pc ≠ kbsrAddr → s.pc + 1 ≠ kbsrAddr → decode (s.cell s.pc) = .st r 0 →
    ∃ t, step s = .next t ∧ t.pc = s.pc + 1 ∧ t.cell (s.pc + 1) = s.reg r ∧
      step t = exec (decode (s.reg r)) (t.setPc (s.pc + 2))
end

