-- ==== Sys2Proof/Laws/Decode.lean ====
section
/-! SUPPORT. The decoder's and the encoder's small lemmas. -/

namespace Sys2Proof

/-- A register field's three bits name the register they were made from. -/
@[simp] theorem regBits_toFin (r : Reg) : (regBits r).toFin = r := rfl

/-- The opcode number stands in bits 15:12 of an encoded word, whatever the operands (R91). -/
theorem encode_opcode (i : Instr) : opcodeOf (encode i) = i.opcode := by
  have h : (encode i).extractLsb' 12 4 = i.opcode.number := BitVec.extractLsb'_append_eq_left
  rw [opcodeOf, h, Opcode.ofBits_number]

/-- The operand bits stand in bits 11:0 of an encoded word. -/
theorem encode_operandBits (i : Instr) : (encode i).extractLsb' 0 12 = i.operandBits :=
  BitVec.extractLsb'_append_eq_right

/-- The numbers of two opcodes differ (R95). -/
theorem Opcode.number_injective : Function.Injective Opcode.number :=
  Function.LeftInverse.injective Opcode.ofBits_number

theorem decodeTableWord_16 {w : Nat} (h : w < 65536) : decodeTableWord 16 w = some (decode (BitVec.ofNat 16 w)) := by
  simp [decodeTableWord, h]

end Sys2Proof
end

