-- ==== Sys2Proof/Laws/State.lean ====
section
/-! SUPPORT. One lemma per field of State per update, each true by rfl, so that no proof unfolds a record update. -/

namespace Sys2Proof.Machine

/-! ### setReg -/

@[simp] theorem State.setReg_regs (s : State) (r : Reg) (v : Word) : (s.setReg r v).regs = s.regs.set r.val v r.isLt := rfl
@[simp] theorem State.setReg_pc (s : State) (r : Reg) (v : Word) : (s.setReg r v).pc = s.pc := rfl
@[simp] theorem State.setReg_cond (s : State) (r : Reg) (v : Word) : (s.setReg r v).cond = s.cond := rfl
@[simp] theorem State.setReg_mem (s : State) (r : Reg) (v : Word) : (s.setReg r v).mem = s.mem := rfl
@[simp] theorem State.setReg_run (s : State) (r : Reg) (v : Word) : (s.setReg r v).run = s.run := rfl
@[simp] theorem State.setReg_phase (s : State) (r : Reg) (v : Word) : (s.setReg r v).phase = s.phase := rfl
@[simp] theorem State.setReg_params (s : State) (r : Reg) (v : Word) : (s.setReg r v).params = s.params := rfl
@[simp] theorem State.setReg_out (s : State) (r : Reg) (v : Word) : (s.setReg r v).out = s.out := rfl
@[simp] theorem State.setReg_input (s : State) (r : Reg) (v : Word) : (s.setReg r v).input = s.input := rfl
@[simp] theorem State.setReg_ready (s : State) (r : Reg) (v : Word) : (s.setReg r v).ready = s.ready := rfl
@[simp] theorem State.setReg_offered (s : State) (r : Reg) (v : Word) : (s.setReg r v).offered = s.offered := rfl
@[simp] theorem State.setReg_stop (s : State) (r : Reg) (v : Word) : (s.setReg r v).stop = s.stop := rfl
@[simp] theorem State.setReg_stops (s : State) (r : Reg) (v : Word) : (s.setReg r v).stops = s.stops := rfl
@[simp] theorem State.setReg_cell (s : State) (r : Reg) (v : Word) (a : Word) : (s.setReg r v).cell a = s.cell a := rfl

/-! ### setPc -/

@[simp] theorem State.setPc_regs (s : State) (v : Word) : (s.setPc v).regs = s.regs := rfl
@[simp] theorem State.setPc_pc (s : State) (v : Word) : (s.setPc v).pc = v := rfl
@[simp] theorem State.setPc_cond (s : State) (v : Word) : (s.setPc v).cond = s.cond := rfl
@[simp] theorem State.setPc_mem (s : State) (v : Word) : (s.setPc v).mem = s.mem := rfl
@[simp] theorem State.setPc_run (s : State) (v : Word) : (s.setPc v).run = s.run := rfl
@[simp] theorem State.setPc_phase (s : State) (v : Word) : (s.setPc v).phase = s.phase := rfl
@[simp] theorem State.setPc_params (s : State) (v : Word) : (s.setPc v).params = s.params := rfl
@[simp] theorem State.setPc_out (s : State) (v : Word) : (s.setPc v).out = s.out := rfl
@[simp] theorem State.setPc_input (s : State) (v : Word) : (s.setPc v).input = s.input := rfl
@[simp] theorem State.setPc_ready (s : State) (v : Word) : (s.setPc v).ready = s.ready := rfl
@[simp] theorem State.setPc_offered (s : State) (v : Word) : (s.setPc v).offered = s.offered := rfl
@[simp] theorem State.setPc_stop (s : State) (v : Word) : (s.setPc v).stop = s.stop := rfl
@[simp] theorem State.setPc_stops (s : State) (v : Word) : (s.setPc v).stops = s.stops := rfl
@[simp] theorem State.setPc_reg (s : State) (v : Word) (r : Reg) : (s.setPc v).reg r = s.reg r := rfl
@[simp] theorem State.setPc_cell (s : State) (v : Word) (a : Word) : (s.setPc v).cell a = s.cell a := rfl

/-! ### setCond -/

@[simp] theorem State.setCond_regs (s : State) (c : BitVec 3) : (s.setCond c).regs = s.regs := rfl
@[simp] theorem State.setCond_pc (s : State) (c : BitVec 3) : (s.setCond c).pc = s.pc := rfl
@[simp] theorem State.setCond_cond (s : State) (c : BitVec 3) : (s.setCond c).cond = c := rfl
@[simp] theorem State.setCond_mem (s : State) (c : BitVec 3) : (s.setCond c).mem = s.mem := rfl
@[simp] theorem State.setCond_run (s : State) (c : BitVec 3) : (s.setCond c).run = s.run := rfl
@[simp] theorem State.setCond_phase (s : State) (c : BitVec 3) : (s.setCond c).phase = s.phase := rfl
@[simp] theorem State.setCond_params (s : State) (c : BitVec 3) : (s.setCond c).params = s.params := rfl
@[simp] theorem State.setCond_out (s : State) (c : BitVec 3) : (s.setCond c).out = s.out := rfl
@[simp] theorem State.setCond_input (s : State) (c : BitVec 3) : (s.setCond c).input = s.input := rfl
@[simp] theorem State.setCond_ready (s : State) (c : BitVec 3) : (s.setCond c).ready = s.ready := rfl
@[simp] theorem State.setCond_offered (s : State) (c : BitVec 3) : (s.setCond c).offered = s.offered := rfl
@[simp] theorem State.setCond_stop (s : State) (c : BitVec 3) : (s.setCond c).stop = s.stop := rfl
@[simp] theorem State.setCond_stops (s : State) (c : BitVec 3) : (s.setCond c).stops = s.stops := rfl
@[simp] theorem State.setCond_reg (s : State) (c : BitVec 3) (r : Reg) : (s.setCond c).reg r = s.reg r := rfl
@[simp] theorem State.setCond_cell (s : State) (c : BitVec 3) (a : Word) : (s.setCond c).cell a = s.cell a := rfl

/-! ### setMem -/

@[simp] theorem State.setMem_regs (s : State) (m : Memory) : (s.setMem m).regs = s.regs := rfl
@[simp] theorem State.setMem_pc (s : State) (m : Memory) : (s.setMem m).pc = s.pc := rfl
@[simp] theorem State.setMem_cond (s : State) (m : Memory) : (s.setMem m).cond = s.cond := rfl
@[simp] theorem State.setMem_mem (s : State) (m : Memory) : (s.setMem m).mem = m := rfl
@[simp] theorem State.setMem_run (s : State) (m : Memory) : (s.setMem m).run = s.run := rfl
@[simp] theorem State.setMem_phase (s : State) (m : Memory) : (s.setMem m).phase = s.phase := rfl
@[simp] theorem State.setMem_params (s : State) (m : Memory) : (s.setMem m).params = s.params := rfl
@[simp] theorem State.setMem_out (s : State) (m : Memory) : (s.setMem m).out = s.out := rfl
@[simp] theorem State.setMem_input (s : State) (m : Memory) : (s.setMem m).input = s.input := rfl
@[simp] theorem State.setMem_ready (s : State) (m : Memory) : (s.setMem m).ready = s.ready := rfl
@[simp] theorem State.setMem_offered (s : State) (m : Memory) : (s.setMem m).offered = s.offered := rfl
@[simp] theorem State.setMem_stop (s : State) (m : Memory) : (s.setMem m).stop = s.stop := rfl
@[simp] theorem State.setMem_stops (s : State) (m : Memory) : (s.setMem m).stops = s.stops := rfl
@[simp] theorem State.setMem_reg (s : State) (m : Memory) (r : Reg) : (s.setMem m).reg r = s.reg r := rfl

/-! ### setRun -/

@[simp] theorem State.setRun_regs (s : State) (r : RunState) : (s.setRun r).regs = s.regs := rfl
@[simp] theorem State.setRun_pc (s : State) (r : RunState) : (s.setRun r).pc = s.pc := rfl
@[simp] theorem State.setRun_cond (s : State) (r : RunState) : (s.setRun r).cond = s.cond := rfl
@[simp] theorem State.setRun_mem (s : State) (r : RunState) : (s.setRun r).mem = s.mem := rfl
@[simp] theorem State.setRun_run (s : State) (r : RunState) : (s.setRun r).run = r := rfl
@[simp] theorem State.setRun_phase (s : State) (r : RunState) : (s.setRun r).phase = s.phase := rfl
@[simp] theorem State.setRun_params (s : State) (r : RunState) : (s.setRun r).params = s.params := rfl
@[simp] theorem State.setRun_out (s : State) (r : RunState) : (s.setRun r).out = s.out := rfl
@[simp] theorem State.setRun_input (s : State) (r : RunState) : (s.setRun r).input = s.input := rfl
@[simp] theorem State.setRun_ready (s : State) (r : RunState) : (s.setRun r).ready = s.ready := rfl
@[simp] theorem State.setRun_offered (s : State) (r : RunState) : (s.setRun r).offered = s.offered := rfl
@[simp] theorem State.setRun_stop (s : State) (r : RunState) : (s.setRun r).stop = s.stop := rfl
@[simp] theorem State.setRun_stops (s : State) (r : RunState) : (s.setRun r).stops = s.stops := rfl
@[simp] theorem State.setRun_reg (s : State) (k : RunState) (r : Reg) : (s.setRun k).reg r = s.reg r := rfl
@[simp] theorem State.setRun_cell (s : State) (r : RunState) (a : Word) : (s.setRun r).cell a = s.cell a := rfl

/-! ### setPhase -/

@[simp] theorem State.setPhase_regs (s : State) (p : Phase) : (s.setPhase p).regs = s.regs := rfl
@[simp] theorem State.setPhase_pc (s : State) (p : Phase) : (s.setPhase p).pc = s.pc := rfl
@[simp] theorem State.setPhase_cond (s : State) (p : Phase) : (s.setPhase p).cond = s.cond := rfl
@[simp] theorem State.setPhase_mem (s : State) (p : Phase) : (s.setPhase p).mem = s.mem := rfl
@[simp] theorem State.setPhase_run (s : State) (p : Phase) : (s.setPhase p).run = s.run := rfl
@[simp] theorem State.setPhase_phase (s : State) (p : Phase) : (s.setPhase p).phase = p := rfl
@[simp] theorem State.setPhase_params (s : State) (p : Phase) : (s.setPhase p).params = s.params := rfl
@[simp] theorem State.setPhase_out (s : State) (p : Phase) : (s.setPhase p).out = s.out := rfl
@[simp] theorem State.setPhase_input (s : State) (p : Phase) : (s.setPhase p).input = s.input := rfl
@[simp] theorem State.setPhase_ready (s : State) (p : Phase) : (s.setPhase p).ready = s.ready := rfl
@[simp] theorem State.setPhase_offered (s : State) (p : Phase) : (s.setPhase p).offered = s.offered := rfl
@[simp] theorem State.setPhase_stop (s : State) (p : Phase) : (s.setPhase p).stop = s.stop := rfl
@[simp] theorem State.setPhase_stops (s : State) (p : Phase) : (s.setPhase p).stops = s.stops := rfl
@[simp] theorem State.setPhase_reg (s : State) (p : Phase) (r : Reg) : (s.setPhase p).reg r = s.reg r := rfl
@[simp] theorem State.setPhase_cell (s : State) (p : Phase) (a : Word) : (s.setPhase p).cell a = s.cell a := rfl

/-! ### consoleWrite -/

@[simp] theorem consoleWrite_regs (s : State) (b : Byte) : (consoleWrite b s).regs = s.regs := rfl
@[simp] theorem consoleWrite_pc (s : State) (b : Byte) : (consoleWrite b s).pc = s.pc := rfl
@[simp] theorem consoleWrite_cond (s : State) (b : Byte) : (consoleWrite b s).cond = s.cond := rfl
@[simp] theorem consoleWrite_mem (s : State) (b : Byte) : (consoleWrite b s).mem = s.mem := rfl
@[simp] theorem consoleWrite_run (s : State) (b : Byte) : (consoleWrite b s).run = s.run := rfl
@[simp] theorem consoleWrite_phase (s : State) (b : Byte) : (consoleWrite b s).phase = s.phase := rfl
@[simp] theorem consoleWrite_params (s : State) (b : Byte) : (consoleWrite b s).params = s.params := rfl
@[simp] theorem consoleWrite_out (s : State) (b : Byte) : (consoleWrite b s).out = s.out ++ [b] := rfl
@[simp] theorem consoleWrite_input (s : State) (b : Byte) : (consoleWrite b s).input = s.input := rfl
@[simp] theorem consoleWrite_ready (s : State) (b : Byte) : (consoleWrite b s).ready = s.ready := rfl
@[simp] theorem consoleWrite_offered (s : State) (b : Byte) : (consoleWrite b s).offered = s.offered := rfl
@[simp] theorem consoleWrite_stop (s : State) (b : Byte) : (consoleWrite b s).stop = s.stop := rfl
@[simp] theorem consoleWrite_stops (s : State) (b : Byte) : (consoleWrite b s).stops = s.stops := rfl
@[simp] theorem consoleWrite_reg (s : State) (b : Byte) (r : Reg) : (consoleWrite b s).reg r = s.reg r := rfl
@[simp] theorem consoleWrite_cell (s : State) (b : Byte) (a : Word) : (consoleWrite b s).cell a = s.cell a := rfl

/-! ### consoleWriteAll -/

@[simp] theorem consoleWriteAll_regs (s : State) (bs : List Byte) : (consoleWriteAll bs s).regs = s.regs := rfl
@[simp] theorem consoleWriteAll_pc (s : State) (bs : List Byte) : (consoleWriteAll bs s).pc = s.pc := rfl
@[simp] theorem consoleWriteAll_cond (s : State) (bs : List Byte) : (consoleWriteAll bs s).cond = s.cond := rfl
@[simp] theorem consoleWriteAll_mem (s : State) (bs : List Byte) : (consoleWriteAll bs s).mem = s.mem := rfl
@[simp] theorem consoleWriteAll_run (s : State) (bs : List Byte) : (consoleWriteAll bs s).run = s.run := rfl
@[simp] theorem consoleWriteAll_phase (s : State) (bs : List Byte) : (consoleWriteAll bs s).phase = s.phase := rfl
@[simp] theorem consoleWriteAll_params (s : State) (bs : List Byte) : (consoleWriteAll bs s).params = s.params := rfl
@[simp] theorem consoleWriteAll_out (s : State) (bs : List Byte) : (consoleWriteAll bs s).out = s.out ++ bs := rfl
@[simp] theorem consoleWriteAll_input (s : State) (bs : List Byte) : (consoleWriteAll bs s).input = s.input := rfl
@[simp] theorem consoleWriteAll_ready (s : State) (bs : List Byte) : (consoleWriteAll bs s).ready = s.ready := rfl
@[simp] theorem consoleWriteAll_offered (s : State) (bs : List Byte) : (consoleWriteAll bs s).offered = s.offered := rfl
@[simp] theorem consoleWriteAll_stop (s : State) (bs : List Byte) : (consoleWriteAll bs s).stop = s.stop := rfl
@[simp] theorem consoleWriteAll_stops (s : State) (bs : List Byte) : (consoleWriteAll bs s).stops = s.stops := rfl
@[simp] theorem consoleWriteAll_reg (s : State) (bs : List Byte) (r : Reg) : (consoleWriteAll bs s).reg r = s.reg r := rfl
@[simp] theorem consoleWriteAll_cell (s : State) (bs : List Byte) (a : Word) : (consoleWriteAll bs s).cell a = s.cell a := rfl

/-! ### memWrite -/

@[simp] theorem memWrite_regs (s : State) (a v : Word) : (memWrite a v s).regs = s.regs := rfl
@[simp] theorem memWrite_pc (s : State) (a v : Word) : (memWrite a v s).pc = s.pc := rfl
@[simp] theorem memWrite_cond (s : State) (a v : Word) : (memWrite a v s).cond = s.cond := rfl
@[simp] theorem memWrite_mem (s : State) (a v : Word) : (memWrite a v s).mem = s.mem.write a.toNat v := rfl
@[simp] theorem memWrite_run (s : State) (a v : Word) : (memWrite a v s).run = s.run := rfl
@[simp] theorem memWrite_phase (s : State) (a v : Word) : (memWrite a v s).phase = s.phase := rfl
@[simp] theorem memWrite_params (s : State) (a v : Word) : (memWrite a v s).params = s.params := rfl
@[simp] theorem memWrite_out (s : State) (a v : Word) : (memWrite a v s).out = s.out := rfl
@[simp] theorem memWrite_input (s : State) (a v : Word) : (memWrite a v s).input = s.input := rfl
@[simp] theorem memWrite_ready (s : State) (a v : Word) : (memWrite a v s).ready = s.ready := rfl
@[simp] theorem memWrite_offered (s : State) (a v : Word) : (memWrite a v s).offered = s.offered := rfl
@[simp] theorem memWrite_stop (s : State) (a v : Word) : (memWrite a v s).stop = s.stop := rfl
@[simp] theorem memWrite_stops (s : State) (a v : Word) : (memWrite a v s).stops = s.stops := rfl
@[simp] theorem memWrite_reg (s : State) (a v : Word) (r : Reg) : (memWrite a v s).reg r = s.reg r := rfl

/-! ### Registers -/

@[simp] theorem State.setReg_reg_same (s : State) (r : Reg) (v : Word) : (s.setReg r v).reg r = v := by
  simp [State.reg, State.setReg, Vector.get_eq_getElem]

theorem State.setReg_reg_other (s : State) {r q : Reg} (v : Word) (h : q ≠ r) : (s.setReg r v).reg q = s.reg q := by
  have : r.val ≠ q.val := fun e => h (Fin.ext e.symm)
  simp [State.reg, State.setReg, Vector.get_eq_getElem, this]

theorem State.setReg_reg (s : State) (r q : Reg) (v : Word) :
    (s.setReg r v).reg q = if q = r then v else s.reg q := by
  split
  case isTrue h => subst h; simp
  case isFalse h => exact s.setReg_reg_other v h

/-! ### The operations that are one of the updates -/

@[simp] theorem setcc_eq (v : Word) (s : State) : setcc v s = s.setCond (condOf v) := rfl

@[simp] theorem writeResult_eq (d : Reg) (v : Word) (s : State) :
    writeResult d v s = (s.setReg d v).setCond (condOf v) := rfl

@[simp] theorem consoleFlush_eq (s : State) : consoleFlush s = s := rfl

@[simp] theorem raiseIllegal_eq (s : State) : raiseIllegal s = s.setRun .illegal := rfl

@[simp] theorem halt_eq (s : State) : halt s = s.setRun .halted := rfl

@[simp] theorem interrupt_eq (s : State) : interrupt s = (s.setRun .interrupted).setPhase .cycle := rfl

/-! ### Reset -/

theorem State.reset_reg (r : Reg) : State.reset.reg r = 0 := by
  revert r; decide

end Sys2Proof.Machine
end

