-- ==== Sys2Proof/Laws/Memory.lean ====
section
/-! SUPPORT. The laws of memory: a read after a write, and that every operation keeps the canonical form. -/

namespace Sys2Proof.Machine

/-! ### Reading after an update -/

theorem Memory.read_erase_same (m : Memory) (a : Nat) : (m.erase a).read a = 0 := by
  induction m with
  | nil => rfl
  | cons c m ih =>
    by_cases h : c.1 = a
    · simpa [Memory.erase, h] using ih
    · simpa [Memory.erase, Memory.read, h] using ih

theorem Memory.read_erase_other (m : Memory) {a b : Nat} (h : b ≠ a) : (m.erase a).read b = m.read b := by
  induction m with
  | nil => rfl
  | cons c m ih =>
    by_cases hc : c.1 = a
    · have : c.1 ≠ b := fun e => h (e.symm.trans hc)
      simpa [Memory.erase, Memory.read, hc, h.symm] using ih
    · by_cases hb : c.1 = b
      · simp [Memory.erase, Memory.read, hb, h]
      · simpa [Memory.erase, Memory.read, hc, hb] using ih

theorem Memory.read_insert_same (m : Memory) (a : Nat) (v : Word) (h : ∀ c ∈ m, c.1 ≠ a) :
    (Memory.insert a v m).read a = v := by
  induction m with
  | nil => simp [Memory.insert, Memory.read]
  | cons c m ih =>
    have hc := h c (by simp)
    by_cases hlt : a < c.1
    · simp [Memory.insert, Memory.read, hlt]
    · simp [Memory.insert, Memory.read, hlt, hc]
      exact ih fun d hd => h d (by simp [hd])

theorem Memory.read_insert_other (m : Memory) {a b : Nat} (v : Word) (h : b ≠ a) :
    (Memory.insert a v m).read b = m.read b := by
  induction m with
  | nil => simp [Memory.insert, Memory.read, h.symm]
  | cons c m ih =>
    by_cases hlt : a < c.1
    · simp [Memory.insert, Memory.read, hlt, h.symm]
    · simp [Memory.insert, Memory.read, hlt, ih]

theorem Memory.erase_ne (m : Memory) (a : Nat) : ∀ c ∈ m.erase a, c.1 ≠ a := by
  intro c hc
  simpa [Memory.erase] using (List.mem_filter.mp hc).2

theorem Memory.read_write_same (m : Memory) (a : Nat) (v : Word) : (m.write a v).read a = v := by
  unfold Memory.write
  split
  case isTrue h => rw [h]; exact m.read_erase_same a
  case isFalse => exact Memory.read_insert_same _ _ _ (m.erase_ne a)

theorem Memory.read_write_other (m : Memory) {a b : Nat} (v : Word) (h : b ≠ a) :
    (m.write a v).read b = m.read b := by
  unfold Memory.write
  split
  · exact m.read_erase_other h
  · rw [Memory.read_insert_other _ _ h, m.read_erase_other h]

/-- Reading any cell after a write of one (R64). -/
theorem memWrite_cell (a v : Word) (s : State) (b : Word) :
    (memWrite a v s).cell b = if b = a then v else s.cell b := by
  by_cases h : b = a
  · subst h; simp [State.cell, Memory.read_write_same]
  · have : b.toNat ≠ a.toNat := fun e => h (BitVec.eq_of_toNat_eq e)
    simp [State.cell, Memory.read_write_other _ _ this, h]

@[simp] theorem memWrite_cell_same (a v : Word) (s : State) : (memWrite a v s).cell a = v := by
  simp [memWrite_cell]

theorem memWrite_cell_other (a v : Word) (s : State) {b : Word} (h : b ≠ a) :
    (memWrite a v s).cell b = s.cell b := by
  simp [memWrite_cell, h]

/-! ### The canonical form -/

theorem Memory.wf_iff (m : Memory) :
    m.wf = true ↔ (m.Pairwise fun c d => c.1 < d.1) ∧ ∀ c ∈ m, c.1 < 65536 ∧ c.2 ≠ 0 := by
  simp [Memory.wf]

theorem Memory.erase_wf {m : Memory} (a : Nat) (h : m.wf = true) : (m.erase a).wf = true := by
  rw [Memory.wf_iff] at *
  exact ⟨h.1.filter _, fun c hc => h.2 c (List.mem_filter.mp hc).1⟩

theorem Memory.mem_insert {a : Nat} {v : Word} {m : Memory} {c : Cell} (h : c ∈ Memory.insert a v m) :
    c = (a, v) ∨ c ∈ m := by
  induction m with
  | nil => simpa [Memory.insert] using h
  | cons d m ih =>
    unfold Memory.insert at h
    split at h
    · simpa using h
    · rcases List.mem_cons.mp h with h | h
      · exact .inr (by simp [h])
      · rcases ih h with h | h
        · exact .inl h
        · exact .inr (by simp [h])

theorem Memory.insert_wf {m : Memory} {a : Nat} {v : Word} (hm : m.wf = true) (ha : a < 65536) (hv : v ≠ 0)
    (hne : ∀ c ∈ m, c.1 ≠ a) : (Memory.insert a v m).wf = true := by
  rw [Memory.wf_iff] at *
  refine ⟨?_, fun c hc => ?_⟩
  · obtain ⟨hp, -⟩ := hm
    induction m with
    | nil => simp [Memory.insert]
    | cons d m ih =>
      obtain ⟨hd, hp⟩ := List.pairwise_cons.mp hp
      have hda := hne d (by simp)
      unfold Memory.insert
      split
      case isTrue h =>
        refine List.pairwise_cons.mpr ⟨fun c hc => ?_, List.pairwise_cons.mpr ⟨hd, hp⟩⟩
        rcases List.mem_cons.mp hc with rfl | hc
        · exact h
        · exact Nat.lt_trans h (hd c hc)
      case isFalse h =>
        refine List.pairwise_cons.mpr ⟨fun c hc => ?_, ih (fun c hc => hne c (by simp [hc])) hp⟩
        rcases Memory.mem_insert hc with rfl | hc
        · show d.1 < a
          omega
        · exact hd c hc
  · rcases Memory.mem_insert hc with rfl | hc
    · exact ⟨ha, hv⟩
    · exact hm.2 c hc

theorem Memory.write_wf {m : Memory} {a : Nat} (v : Word) (hm : m.wf = true) (ha : a < 65536) :
    (m.write a v).wf = true := by
  unfold Memory.write
  split
  · exact Memory.erase_wf a hm
  case isFalse h => exact Memory.insert_wf (Memory.erase_wf a hm) ha h (m.erase_ne a)

theorem memWrite_wf (a v : Word) {s : State} (h : s.mem.wf = true) : (memWrite a v s).mem.wf = true :=
  Memory.write_wf v h a.isLt

theorem keyboardPoll_wf {s : State} (h : s.mem.wf = true) : (keyboardPoll s).mem.wf = true := by
  have hm : (consolePoll s).2.mem = s.mem := by
    unfold consolePoll takeCode; dsimp only; split <;> rfl
  unfold keyboardPoll
  split
  case h_1 c s1 e =>
    rw [e] at hm
    exact memWrite_wf _ _ (memWrite_wf _ _ (hm ▸ h))
  case h_2 s1 e =>
    rw [e] at hm
    exact memWrite_wf _ _ (hm ▸ h)

theorem memRead_wf (a : Word) {s : State} (h : s.mem.wf = true) : (memRead a s).2.mem.wf = true := by
  unfold memRead
  split
  · exact keyboardPoll_wf h
  · exact h

theorem storeWords_wf (a : Nat) (ws : List Word) {m : Memory} (h : m.wf = true) : (storeWords a ws m).wf = true := by
  induction ws generalizing a m with
  | nil => exact h
  | cons w ws ih =>
    refine ih _ ?_
    split
    case isTrue ha => exact Memory.write_wf w h (by omega)
    · exact h

theorem loadImages_wf (is : List Image) {m : Memory} (h : m.wf = true) : (loadImages is m).wf = true := by
  induction is generalizing m with
  | nil => exact h
  | cons i is ih => exact ih (storeWords_wf _ _ h)

end Sys2Proof.Machine
end

