-- ==== Sys2Proof/Laws/Ops.lean ====
section
/-! SUPPORT. What each shared operation can do, said once: the console and stop ports, the keyboard, a read of
memory, the fetch, the operand forms and the flag. -/

namespace Sys2Proof.Machine

/-! ### Asking the host for a code -/

/-- A listed item comes first and is used up (R214). -/
theorem Feed.head?_cons {α : Type} (a : α) (rest again : List α) : (Feed.mk (a :: rest) again).head? = some a := rfl

theorem Feed.tail_cons {α : Type} (a : α) (rest again : List α) : (Feed.mk (a :: rest) again).tail = ⟨rest, again⟩ := rfl

/-- A stream at its end gives nothing and stays there. -/
theorem Feed.head?_nil {α : Type} : (Feed.mk ([] : List α) []).head? = none := rfl

theorem Feed.tail_nil {α : Type} : (Feed.mk ([] : List α) []).tail = ⟨[], []⟩ := rfl

/-- A stream that repeats one item gives it at every ask. -/
theorem Feed.drop_repeat {α : Type} (a : α) (n : Nat) : ((Feed.mk [] [a]).drop n).head? = some a := by
  cases n with
  | zero => rfl
  | succ n =>
    show ((Feed.mk [] [a]).drop n).head? = some a
    exact Feed.drop_repeat a n

theorem Feed.drop_tail {α : Type} (f : Feed α) (n : Nat) : f.tail.drop n = f.drop (n + 1) := rfl

theorem Feed.drop_drop {α : Type} (f : Feed α) (m n : Nat) : (f.drop m).drop n = f.drop (m + n) := by
  induction m generalizing f with
  | zero => simp [Feed.drop]
  | succ m ih => rw [Nat.add_right_comm]; exact ih f.tail

/-- What the host offers is the next code of the input, where its next answer is to deliver (R214). -/
theorem State.offered_eq_some (s : State) (c : Code) :
    s.offered = some c ↔ s.ready.head? = some true ∧ s.input.head? = some c := by
  simp [State.offered]

/-- Everything `takeCode` can do: the host delivers the next code, or it does not. -/
theorem takeCode_cases (s : State) :
    (∃ c, s.offered = some c ∧ takeCode s = (some c.word, { s with ready := s.ready.tail, input := s.input.tail })) ∨
    (s.offered = none ∧ takeCode s = (none, { s with ready := s.ready.tail })) := by
  unfold takeCode
  cases h : s.offered with
  | none => exact .inr ⟨rfl, rfl⟩
  | some c => exact .inl ⟨c, rfl, rfl⟩

/-- The host delivers: the next code is taken (R214). -/
theorem takeCode_some {s : State} {c : Code} (h : s.offered = some c) :
    takeCode s = (some c.word, { s with ready := s.ready.tail, input := s.input.tail }) := by
  simp [takeCode, h]

/-- The host declines, or the input holds no code (R70, R183). -/
theorem takeCode_none {s : State} (h : s.offered = none) : takeCode s = (none, { s with ready := s.ready.tail }) := by
  simp [takeCode, h]

/-- Every ask uses up one answer, and at most one code (R214). -/
theorem takeCode_uses (s : State) :
    (takeCode s).2.ready = s.ready.drop 1 ∧ ∃ n, (takeCode s).2.input = s.input.drop n := by
  obtain ⟨c, -, h⟩ | ⟨-, h⟩ := takeCode_cases s <;> rw [h]
  · exact ⟨rfl, 1, rfl⟩
  · exact ⟨rfl, 0, rfl⟩

@[simp] theorem takeCode_regs (s : State) : (takeCode s).2.regs = s.regs := by
  obtain ⟨c, -, h⟩ | ⟨-, h⟩ := takeCode_cases s <;> rw [h]

@[simp] theorem takeCode_pc (s : State) : (takeCode s).2.pc = s.pc := by
  obtain ⟨c, -, h⟩ | ⟨-, h⟩ := takeCode_cases s <;> rw [h]

@[simp] theorem takeCode_cond (s : State) : (takeCode s).2.cond = s.cond := by
  obtain ⟨c, -, h⟩ | ⟨-, h⟩ := takeCode_cases s <;> rw [h]

@[simp] theorem takeCode_run (s : State) : (takeCode s).2.run = s.run := by
  obtain ⟨c, -, h⟩ | ⟨-, h⟩ := takeCode_cases s <;> rw [h]

@[simp] theorem takeCode_phase (s : State) : (takeCode s).2.phase = s.phase := by
  obtain ⟨c, -, h⟩ | ⟨-, h⟩ := takeCode_cases s <;> rw [h]

@[simp] theorem takeCode_params (s : State) : (takeCode s).2.params = s.params := by
  obtain ⟨c, -, h⟩ | ⟨-, h⟩ := takeCode_cases s <;> rw [h]

@[simp] theorem takeCode_out (s : State) : (takeCode s).2.out = s.out := by
  obtain ⟨c, -, h⟩ | ⟨-, h⟩ := takeCode_cases s <;> rw [h]

@[simp] theorem takeCode_stop (s : State) : (takeCode s).2.stop = s.stop := by
  obtain ⟨c, -, h⟩ | ⟨-, h⟩ := takeCode_cases s <;> rw [h]

@[simp] theorem takeCode_stops (s : State) : (takeCode s).2.stops = s.stops := by
  obtain ⟨c, -, h⟩ | ⟨-, h⟩ := takeCode_cases s <;> rw [h]

@[simp] theorem takeCode_mem (s : State) : (takeCode s).2.mem = s.mem := by
  obtain ⟨c, -, h⟩ | ⟨-, h⟩ := takeCode_cases s <;> rw [h]

theorem consolePoll_eq (s : State) : consolePoll s = takeCode s := rfl

theorem consoleRead_eq (s : State) : consoleRead s = takeCode s := rfl

/-! ### The keyboard -/

/-- Everything a poll can do (R66). -/
theorem keyboardPoll_cases (s : State) :
    (∃ c, s.offered = some c ∧
      keyboardPoll s =
        memWrite kbdrAddr c.word (memWrite kbsrAddr kbsrReady { s with ready := s.ready.tail, input := s.input.tail })) ∨
    (s.offered = none ∧ keyboardPoll s = memWrite kbsrAddr 0 { s with ready := s.ready.tail }) := by
  unfold keyboardPoll
  rw [consolePoll_eq]
  obtain ⟨c, ho, h⟩ | ⟨ho, h⟩ := takeCode_cases s
  · exact .inl ⟨c, ho, by rw [h]⟩
  · exact .inr ⟨ho, by rw [h]⟩

@[simp] theorem keyboardPoll_regs (s : State) : (keyboardPoll s).regs = s.regs := by
  obtain ⟨c, -, h⟩ | ⟨-, h⟩ := keyboardPoll_cases s <;> rw [h] <;> rfl

@[simp] theorem keyboardPoll_pc (s : State) : (keyboardPoll s).pc = s.pc := by
  obtain ⟨c, -, h⟩ | ⟨-, h⟩ := keyboardPoll_cases s <;> rw [h] <;> rfl

@[simp] theorem keyboardPoll_cond (s : State) : (keyboardPoll s).cond = s.cond := by
  obtain ⟨c, -, h⟩ | ⟨-, h⟩ := keyboardPoll_cases s <;> rw [h] <;> rfl

@[simp] theorem keyboardPoll_run (s : State) : (keyboardPoll s).run = s.run := by
  obtain ⟨c, -, h⟩ | ⟨-, h⟩ := keyboardPoll_cases s <;> rw [h] <;> rfl

@[simp] theorem keyboardPoll_phase (s : State) : (keyboardPoll s).phase = s.phase := by
  obtain ⟨c, -, h⟩ | ⟨-, h⟩ := keyboardPoll_cases s <;> rw [h] <;> rfl

@[simp] theorem keyboardPoll_params (s : State) : (keyboardPoll s).params = s.params := by
  obtain ⟨c, -, h⟩ | ⟨-, h⟩ := keyboardPoll_cases s <;> rw [h] <;> rfl

@[simp] theorem keyboardPoll_out (s : State) : (keyboardPoll s).out = s.out := by
  obtain ⟨c, -, h⟩ | ⟨-, h⟩ := keyboardPoll_cases s <;> rw [h] <;> rfl

@[simp] theorem keyboardPoll_stop (s : State) : (keyboardPoll s).stop = s.stop := by
  obtain ⟨c, -, h⟩ | ⟨-, h⟩ := keyboardPoll_cases s <;> rw [h] <;> rfl

@[simp] theorem keyboardPoll_stops (s : State) : (keyboardPoll s).stops = s.stops := by
  obtain ⟨c, -, h⟩ | ⟨-, h⟩ := keyboardPoll_cases s <;> rw [h] <;> rfl

@[simp] theorem keyboardPoll_reg (s : State) (r : Reg) : (keyboardPoll s).reg r = s.reg r := by
  simp [State.reg]

/-! ### Reads of memory -/

/-- A read at any address but KBSR is pure (R65). -/
theorem memRead_pure {a : Word} (s : State) (h : a ≠ kbsrAddr) : memRead a s = (s.cell a, s) := by
  simp [memRead, h]

/-- A read of KBSR polls first (R63). -/
theorem memRead_kbsr (s : State) : memRead kbsrAddr s = ((keyboardPoll s).cell kbsrAddr, keyboardPoll s) := by
  simp [memRead]

/-- The word read is the cell's contents afterwards (R63). -/
theorem memRead_fst (a : Word) (s : State) : (memRead a s).1 = (memRead a s).2.cell a := rfl

@[simp] theorem memRead_regs (a : Word) (s : State) : (memRead a s).2.regs = s.regs := by
  unfold memRead; split <;> simp

@[simp] theorem memRead_pc (a : Word) (s : State) : (memRead a s).2.pc = s.pc := by
  unfold memRead; split <;> simp

@[simp] theorem memRead_cond (a : Word) (s : State) : (memRead a s).2.cond = s.cond := by
  unfold memRead; split <;> simp

@[simp] theorem memRead_run (a : Word) (s : State) : (memRead a s).2.run = s.run := by
  unfold memRead; split <;> simp

@[simp] theorem memRead_phase (a : Word) (s : State) : (memRead a s).2.phase = s.phase := by
  unfold memRead; split <;> simp

@[simp] theorem memRead_params (a : Word) (s : State) : (memRead a s).2.params = s.params := by
  unfold memRead; split <;> simp

@[simp] theorem memRead_out (a : Word) (s : State) : (memRead a s).2.out = s.out := by
  unfold memRead; split <;> simp

@[simp] theorem memRead_stop (a : Word) (s : State) : (memRead a s).2.stop = s.stop := by
  unfold memRead; split <;> simp

@[simp] theorem memRead_stops (a : Word) (s : State) : (memRead a s).2.stops = s.stops := by
  unfold memRead; split <;> simp

@[simp] theorem memRead_reg (a : Word) (s : State) (r : Reg) : (memRead a s).2.reg r = s.reg r := by
  simp [State.reg]

theorem fetch_eq (s : State) : fetch s = ((memRead s.pc s).1, (memRead s.pc s).2.setPc (s.pc + 1)) := by
  simp [fetch]

/-! ### The stop flag -/

/-- One sample of the stop flag (R206). -/
theorem stopRequested_eq (s : State) :
    stopRequested s = (s.stop || s.stops.headD false,
      { s with stop := s.stop || s.stops.headD false, stops := s.stops.tail }) := by
  unfold stopRequested
  cases h : s.stops with
  | nil => cases s; simp_all
  | cons b answers => simp

theorem stopRequested_fst (s : State) : (stopRequested s).1 = true ↔ StopSeen s := by
  rw [stopRequested_eq]
  unfold StopSeen
  cases s.stops <;> simp

/-! ### The flag -/

theorem condOf_oneHot (v : Word) : OneHot (condOf v) := by
  unfold condOf OneHot
  split
  · simp
  · split <;> simp

/-! ### One step -/

/-- Everything a step can do when it answers a next state. -/
theorem step_cases {s t : State} (h : step s = .next t) :
    s.run = .running ∧
    ((s.phase = .cycle ∧ (stopRequested s).1 = true ∧ t = interrupt (stopRequested s).2) ∨
     (s.phase = .cycle ∧ (stopRequested s).1 = false ∧
       exec (decode (fetch (stopRequested s).2).1) (fetch (stopRequested s).2).2 = .next t) ∨
     (s.phase = .getcWait ∧ t = awaitCode finishGetc s) ∨
     (s.phase = .inWait ∧ t = awaitCode finishIn s) ∨
     (∃ a, s.phase = .puts a ∧ t = putsCell a s) ∨
     (∃ a, s.phase = .putsp a ∧ t = putspCell a s)) := by
  unfold step at h
  split at h
  case h_1 hr =>
    refine ⟨hr, ?_⟩
    split at h
    case h_1 hp =>
      split at h
      case h_1 s1 hs => exact .inl ⟨hp, by rw [hs], by rw [hs]; cases h; rfl⟩
      case h_2 s1 hs => exact .inr (.inl ⟨hp, by rw [hs], by rw [hs]; exact h⟩)
    case h_2 hp => exact .inr (.inr (.inl ⟨hp, by cases h; rfl⟩))
    case h_3 hp => exact .inr (.inr (.inr (.inl ⟨hp, by cases h; rfl⟩)))
    case h_4 a hp => exact .inr (.inr (.inr (.inr (.inl ⟨a, hp, by cases h; rfl⟩))))
    case h_5 a hp => exact .inr (.inr (.inr (.inr (.inr ⟨a, hp, by cases h; rfl⟩))))
  all_goals cases h

/-- A run of `k + 1` steps whose first answers `t` is a run of `k` steps from `t`. -/
theorem core_run_succ {s t : State} (k : Nat) (h : step s = .next t) : core.run (k + 1) s = core.run k t := by
  have h' : core.step s = .next t := h
  simp only [Host.Core.run, h']

/-- Everything a waiting core can do in one hold (R183, R208). -/
theorem awaitCode_cases (finish : Word → State → State) (s : State) :
    ((stopRequested s).1 = true ∧ awaitCode finish s = interrupt (stopRequested s).2) ∨
    ((stopRequested s).1 = false ∧ ∃ c, (takeCode (stopRequested s).2).1 = some c ∧
      awaitCode finish s = finish c (takeCode (stopRequested s).2).2) ∨
    ((stopRequested s).1 = false ∧ (takeCode (stopRequested s).2).1 = none ∧
      awaitCode finish s = (takeCode (stopRequested s).2).2) := by
  unfold awaitCode
  split
  case h_1 s1 h => exact .inl ⟨by rw [h], by rw [h]⟩
  case h_2 s1 h =>
    rw [h, consoleRead_eq]
    split
    case h_1 c s2 hc => exact .inr (.inl ⟨rfl, c, by rw [hc], by rw [hc]⟩)
    case h_2 s2 hc => exact .inr (.inr ⟨rfl, by rw [hc], by rw [hc]⟩)

end Sys2Proof.Machine
end

