-- ==== Sys2Proof/Laws/Exec.lean ====
section
/-! SUPPORT. What `exec` answers for each instruction, said once, so that no proof unfolds the dispatch. -/

namespace Sys2Proof.Machine

theorem exec_addReg (d a b : Reg) (s : State) :
    exec (.addReg d a b) s = .next (writeResult d (s.reg a + s.reg b) s) := rfl

theorem exec_addImm (d a : Reg) (i : BitVec 5) (s : State) :
    exec (.addImm d a i) s = .next (writeResult d (s.reg a + sext i) s) := rfl

theorem exec_andReg (d a b : Reg) (s : State) :
    exec (.andReg d a b) s = .next (writeResult d (s.reg a &&& s.reg b) s) := rfl

theorem exec_andImm (d a : Reg) (i : BitVec 5) (s : State) :
    exec (.andImm d a i) s = .next (writeResult d (s.reg a &&& sext i) s) := rfl

theorem exec_not (d a : Reg) (s : State) : exec (.not d a) s = .next (writeResult d (~~~ s.reg a) s) := rfl

theorem exec_br (m : BitVec 3) (o : BitVec 9) (s : State) :
    exec (.br m o) s = .next (if m &&& s.cond ≠ 0 then s.setPc (s.pc + sext o) else s) := rfl

theorem exec_jmp (b : Reg) (s : State) : exec (.jmp b) s = .next (s.setPc (s.reg b)) := rfl

theorem exec_jsr (o : BitVec 11) (s : State) :
    exec (.jsr o) s = .next ((s.setReg linkReg s.pc).setPc (s.pc + sext o)) := rfl

/-- JSRR goes to the old base, but for `JSRR R7` with the link written first (R153). -/
theorem exec_jsrr (b : Reg) (s : State) :
    exec (.jsrr b) s = .next ((s.setReg linkReg s.pc).setPc
      (if s.params.jsrrBaseFirst then s.reg b else (s.setReg linkReg s.pc).reg b)) := rfl

theorem exec_ld (d : Reg) (o : BitVec 9) (s : State) :
    exec (.ld d o) s = .next (loadInto d (s.pc + sext o) s) := rfl

theorem exec_ldi (d : Reg) (o : BitVec 9) (s : State) :
    exec (.ldi d o) s = .next (loadInto d (memRead (s.pc + sext o) s).1 (memRead (s.pc + sext o) s).2) := rfl

theorem exec_ldr (d b : Reg) (o : BitVec 6) (s : State) :
    exec (.ldr d b o) s = .next (loadInto d (s.reg b + sext o) s) := rfl

theorem exec_lea (d : Reg) (o : BitVec 9) (s : State) :
    exec (.lea d o) s = .next (writeResult d (s.pc + sext o) s) := rfl

theorem exec_st (r : Reg) (o : BitVec 9) (s : State) :
    exec (.st r o) s = .next (memWrite (s.pc + sext o) (s.reg r) s) := rfl

/-- STI's source is read after the pointer, which no read of memory changes (R165). -/
theorem exec_sti (r : Reg) (o : BitVec 9) (s : State) :
    exec (.sti r o) s =
      .next (memWrite (memRead (s.pc + sext o) s).1 (s.reg r) (memRead (s.pc + sext o) s).2) := by
  show Host.Outcome.next (memWrite _ ((memRead (s.pc + sext o) s).2.reg r) _) = _
  rw [memRead_reg]; rfl

theorem exec_str (r b : Reg) (o : BitVec 6) (s : State) :
    exec (.str r b o) s = .next (memWrite (s.reg b + sext o) (s.reg r) s) := rfl

theorem exec_trap (v : BitVec 8) (s : State) :
    exec (.trap v) s = .next (trapService v (if s.params.trapLinksR7 then s.setReg linkReg s.pc else s)) := rfl

theorem exec_illegal8 (s : State) : exec .illegal8 s = .next (s.setRun .illegal) := rfl

theorem exec_illegalD (s : State) : exec .illegalD s = .next (s.setRun .illegal) := rfl

/-- A load: the read, then the result and its flag. -/
theorem loadInto_eq (d : Reg) (a : Word) (s : State) :
    loadInto d a s = writeResult d (memRead a s).1 (memRead a s).2 := rfl

end Sys2Proof.Machine
end

