-- ==== Sys2Proof/Laws/PerInstr.lean ====
section
/-! SUPPORT. Statements made per instruction (LAWS.json). -/

namespace Sys2Proof.Laws.EncodedOpcode

/-- The encoder puts the instruction's opcode, as its row of the table gives it, where the decoder looks for it, so
that only an instruction of the same opcode can be decoded from the word (R91, R95). -/
def Statement (i : Instr) : Prop :=
  opcodeOf (encode i) = i.opcode ∧ (decode (encode i)).opcode = i.opcode

/-- A word decodes to an instruction of the opcode it carries. -/
theorem decode_opcode (w : Word) : (decode w).opcode = opcodeOf w := by
  unfold decode
  split <;> (try split) <;> simp_all [Instr.opcode]

theorem of_encode (i : Instr) : Statement i :=
  ⟨encode_opcode i, (decode_opcode _).trans (encode_opcode i)⟩

theorem addReg : ∀ d a b, Statement (.addReg d a b) := fun _ _ _ => of_encode _
theorem addImm : ∀ d a n, Statement (.addImm d a n) := fun _ _ _ => of_encode _
theorem andReg : ∀ d a b, Statement (.andReg d a b) := fun _ _ _ => of_encode _
theorem andImm : ∀ d a n, Statement (.andImm d a n) := fun _ _ _ => of_encode _
theorem not : ∀ d a, Statement (.not d a) := fun _ _ => of_encode _
theorem br : ∀ m o, Statement (.br m o) := fun _ _ => of_encode _
theorem jmp : ∀ b, Statement (.jmp b) := fun _ => of_encode _
theorem jsr : ∀ o, Statement (.jsr o) := fun _ => of_encode _
theorem jsrr : ∀ b, Statement (.jsrr b) := fun _ => of_encode _
theorem ld : ∀ d o, Statement (.ld d o) := fun _ _ => of_encode _
theorem ldi : ∀ d o, Statement (.ldi d o) := fun _ _ => of_encode _
theorem ldr : ∀ d b o, Statement (.ldr d b o) := fun _ _ _ => of_encode _
theorem lea : ∀ d o, Statement (.lea d o) := fun _ _ => of_encode _
theorem st : ∀ r o, Statement (.st r o) := fun _ _ => of_encode _
theorem sti : ∀ r o, Statement (.sti r o) := fun _ _ => of_encode _
theorem str : ∀ r b o, Statement (.str r b o) := fun _ _ _ => of_encode _
theorem trap : ∀ v, Statement (.trap v) := fun _ => of_encode _
theorem illegal8 : Statement .illegal8 := of_encode _
theorem illegalD : Statement .illegalD := of_encode _

end Sys2Proof.Laws.EncodedOpcode
end

