-- ==== Sys2Proof/Laws/Trap.lean ====
section
/-! SUPPORT. What the pieces of the trap services can do, said once. -/

namespace Sys2Proof.Machine

/-! ### Storing input -/

/-- R0 takes the code; cond follows it only under TRAP_INPUT_SETS_FLAGS (R182, R186). -/
theorem storeInput_eq (c : Word) (s : State) :
    storeInput c s = (s.setReg trapReg c).setCond (if s.params.trapInputSetsFlags then condOf c else s.cond) := by
  unfold storeInput
  cases h : s.params.trapInputSetsFlags
  · simp only [State.setReg_params, h]; rfl
  · simp [h]

/-! ### One cell of PUTS -/

/-- A zero cell ends PUTS; any other writes its low byte (R185). -/
theorem putsCell_eq (a : Word) (s : State) :
    putsCell a s =
      if (memRead a s).1 = 0 then (memRead a s).2.setPhase .cycle
      else (consoleWrite (loByte (memRead a s).1) (memRead a s).2).setPhase (.puts (a + 1)) := rfl

@[simp] theorem putsCell_regs (a : Word) (s : State) : (putsCell a s).regs = s.regs := by
  rw [putsCell_eq]; split <;> simp

@[simp] theorem putsCell_pc (a : Word) (s : State) : (putsCell a s).pc = s.pc := by
  rw [putsCell_eq]; split <;> simp

@[simp] theorem putsCell_cond (a : Word) (s : State) : (putsCell a s).cond = s.cond := by
  rw [putsCell_eq]; split <;> simp

@[simp] theorem putsCell_run (a : Word) (s : State) : (putsCell a s).run = s.run := by
  rw [putsCell_eq]; split <;> simp

@[simp] theorem putsCell_params (a : Word) (s : State) : (putsCell a s).params = s.params := by
  rw [putsCell_eq]; split <;> simp

@[simp] theorem putsCell_stop (a : Word) (s : State) : (putsCell a s).stop = s.stop := by
  rw [putsCell_eq]; split <;> simp

@[simp] theorem putsCell_stops (a : Word) (s : State) : (putsCell a s).stops = s.stops := by
  rw [putsCell_eq]; split <;> simp

@[simp] theorem putsCell_mem (a : Word) (s : State) : (putsCell a s).mem = (memRead a s).2.mem := by
  rw [putsCell_eq]; split <;> simp

/-! ### One cell of PUTSP -/

/-- PUTSP writes the low byte, then the high byte, and ends at a zero byte (R188). -/
theorem putspCell_eq (a : Word) (s : State) :
    putspCell a s =
      if loByte (memRead a s).1 = 0 then (memRead a s).2.setPhase .cycle
      else if hiByte (memRead a s).1 = 0 then
        (consoleWrite (loByte (memRead a s).1) (memRead a s).2).setPhase .cycle
      else
        (consoleWrite (hiByte (memRead a s).1) (consoleWrite (loByte (memRead a s).1) (memRead a s).2)).setPhase
          (.putsp (a + 1)) := rfl

@[simp] theorem putspCell_regs (a : Word) (s : State) : (putspCell a s).regs = s.regs := by
  rw [putspCell_eq]; split <;> (try split) <;> simp

@[simp] theorem putspCell_pc (a : Word) (s : State) : (putspCell a s).pc = s.pc := by
  rw [putspCell_eq]; split <;> (try split) <;> simp

@[simp] theorem putspCell_cond (a : Word) (s : State) : (putspCell a s).cond = s.cond := by
  rw [putspCell_eq]; split <;> (try split) <;> simp

@[simp] theorem putspCell_run (a : Word) (s : State) : (putspCell a s).run = s.run := by
  rw [putspCell_eq]; split <;> (try split) <;> simp

@[simp] theorem putspCell_params (a : Word) (s : State) : (putspCell a s).params = s.params := by
  rw [putspCell_eq]; split <;> (try split) <;> simp

@[simp] theorem putspCell_stop (a : Word) (s : State) : (putspCell a s).stop = s.stop := by
  rw [putspCell_eq]; split <;> (try split) <;> simp

@[simp] theorem putspCell_stops (a : Word) (s : State) : (putspCell a s).stops = s.stops := by
  rw [putspCell_eq]; split <;> (try split) <;> simp

@[simp] theorem putspCell_mem (a : Word) (s : State) : (putspCell a s).mem = (memRead a s).2.mem := by
  rw [putspCell_eq]; split <;> (try split) <;> simp

/-! ### Finishing GETC and IN -/

theorem finishGetc_eq (c : Word) (s : State) : finishGetc c s = (storeInput c s).setPhase .cycle := rfl

/-- IN without the fall-through: echo, then store (R186). -/
theorem finishIn_eq (c : Word) (s : State) (h : s.params.inFallthrough = false) :
    finishIn c s = (storeInput c (consoleWrite (loByte c) s)).setPhase .cycle := by
  simp [finishIn, storeInput_eq, h]

/-- IN with the fall-through goes on as PUTSP at the code's address (R187). -/
theorem finishIn_fallthrough (c : Word) (s : State) (h : s.params.inFallthrough = true) :
    finishIn c s = putspCell c ((storeInput c (consoleWrite (loByte c) s)).setPhase .cycle) := by
  have hr : (((storeInput c (consoleWrite (loByte c) s)).setPhase .cycle).reg trapReg) = c := by
    simp [storeInput_eq]
  have hp : (((storeInput c (consoleWrite (loByte c) s)).setPhase .cycle).params.inFallthrough) = true := by
    simp [storeInput_eq, h]
  exact (if_pos hp).trans (congrArg (putspCell · _) hr)

end Sys2Proof.Machine
end

