-- ==== Sys2Proof/Tests/Slice0.lean ====
section
/-! SUPPORT. The model's own tests. Expected results are the spec's worked examples and vectors (95_test_vectors.md,
named L<n>-<m> below, and the rules' examples), never the model's answers. -/

namespace Sys2Proof.Tests

open Sys2Proof.Machine

/-! ### Helpers -/

/-- The state after one step, if there is one. -/
def after (s : State) : Option State :=
  match step s with
  | .next t => some t
  | _ => none

/-- The fault of a step, if it is one. -/
def faultOf (s : State) : Option Fault :=
  match step s with
  | .fault f => some f
  | _ => none

/-- Reset, with memory holding `cells` and pc at `a`. -/
def at' (a : Word) (cells : Memory) : State := { State.reset with pc := a, mem := cells }

/-- Reset, with `w` at 0x3000. -/
def one (w : Word) : State := State.reset.withFetchWord 16 w.toNat

/-! ### Well-formedness and the memory's canonical form -/

/-- No term of Instr is ill formed (R96, R100). -/
theorem test_every_instr_is_wellFormed (i : Instr) : i.wellFormed = true := by
  cases i <;> rfl

theorem test_wf_refuses_wrong_order : Memory.wf [(5, 1), (4, 1)] = false := by decide
theorem test_wf_refuses_repeated_address : Memory.wf [(4, 1), (4, 2)] = false := by decide
theorem test_wf_refuses_listed_zero : Memory.wf [(4, 0)] = false := by decide
theorem test_wf_refuses_address_out_of_space : Memory.wf [(65536, 1)] = false := by decide
theorem test_write_zero_unlists : Memory.write [(4, 7), (5, 8)] 4 0 = [(5, 8)] := by decide
theorem test_write_keeps_order : Memory.write [(4, 7), (9, 8)] 6 1 = [(4, 7), (6, 1), (9, 8)] := by decide

/-! ### Decoding: words written out bit by bit from R92 and R95 -/

theorem test_decode_addReg : decode 0b0001_011_001_0_00_010 = .addReg 3 1 2 := by decide
theorem test_decode_addReg_ignored : decode 0b0001_001_001_0_11_001 = .addReg 1 1 1 := by decide
theorem test_decode_addImm : decode 0b0001_001_001_1_11011 = .addImm 1 1 0b11011 := by decide
theorem test_decode_andReg : decode 0b0101_011_001_0_00_010 = .andReg 3 1 2 := by decide
theorem test_decode_andImm : decode 0b0101_010_001_1_10000 = .andImm 2 1 0b10000 := by decide
theorem test_decode_not : decode 0b1001_010_001_000000 = .not 2 1 := by decide
theorem test_decode_br : decode 0b0000_101_011111111 = .br 0b101 0b011111111 := by decide
theorem test_decode_jmp : decode 0b1100_111_111_111111 = .jmp 7 := by decide
theorem test_decode_jsr : decode 0b0100_1_10000000000 = .jsr 0b10000000000 := by decide
theorem test_decode_jsrr : decode 0b0100_0_11_010_111111 = .jsrr 2 := by decide
theorem test_decode_ld : decode 0b0010_001_000000010 = .ld 1 2 := by decide
theorem test_decode_ldi : decode 0b1010_011_000000011 = .ldi 3 3 := by decide
theorem test_decode_ldr : decode 0b0110_001_010_100000 = .ldr 1 2 0b100000 := by decide
theorem test_decode_lea : decode 0b1110_101_111111111 = .lea 5 0b111111111 := by decide
theorem test_decode_st : decode 0b0011_000_000000101 = .st 0 5 := by decide
theorem test_decode_sti : decode 0b1011_001_000000001 = .sti 1 1 := by decide
theorem test_decode_str : decode 0b0111_010_000_000001 = .str 2 0 1 := by decide
theorem test_decode_trap : decode 0b1111_1111_00100101 = .trap 0x25 := by decide
theorem test_decode_illegal8 : decode 0b1000_111111111111 = .illegal8 := by decide
theorem test_decode_illegalD : decode 0b1101_000000000000 = .illegalD := by decide
theorem test_encode_not : encode (.not 2 1) = 0x947F := by decide
theorem test_encode_ret : encode (.jmp 7) = 0xC1C0 := by decide
theorem test_decodeTableWord : decodeTableWord 16 0x1642 = some (.addReg 3 1 2) := by decide
theorem test_decodeTableWord_too_wide : decodeTableWord 16 0x11642 = none := by decide
theorem test_decodeTableWord_too_short : decodeTableWord 8 0x25 = none := by decide

/-! ### Operands and flags (L2-1) -/

theorem test_sext_5 : sext (0x10 : BitVec 5) = 0xFFF0 ∧ sext (0x0F : BitVec 5) = 0x000F := by decide
theorem test_sext_6 : sext (0x20 : BitVec 6) = 0xFFE0 ∧ sext (0x1F : BitVec 6) = 0x001F := by decide
theorem test_sext_9 : sext (0x100 : BitVec 9) = 0xFF00 ∧ sext (0x0FF : BitVec 9) = 0x00FF := by decide
theorem test_sext_11 : sext (0x400 : BitVec 11) = 0xFC00 ∧ sext (0x3FF : BitVec 11) = 0x03FF := by decide
theorem test_condOf : condOf 0 = 0b010 ∧ condOf 1 = 0b001 ∧ condOf 0x7FFF = 0b001 ∧ condOf 0x8000 = 0b100 ∧
    condOf 0xFFFF = 0b100 := by decide

/-! ### Operate (L2-2) -/

theorem test_add_signed_overflow_wraps :
    (after ((one 0x1261).setReg 1 0x7FFF)).map (fun t => (t.reg 1, t.cond, t.pc)) = some (0x8000, 0b100, 0x3001) := by
  decide
theorem test_add_carry_lost :
    (after ((one 0x1261).setReg 1 0xFFFF)).map (fun t => (t.reg 1, t.cond)) = some (0, 0b010) := by decide
theorem test_add_source_is_destination :
    (after ((one 0x1259).setReg 1 0x4000)).map (fun t => (t.reg 1, t.cond)) = some (0x8000, 0b100) := by decide
theorem test_and_register :
    (after (((one 0x5642).setReg 1 0x00FF).setReg 2 0x0F0F)).map (fun t => (t.reg 3, t.cond)) = some (0x000F, 0b001) := by
  decide
theorem test_and_immediate_extends :
    (after ((one 0x5470).setReg 1 0x1234)).map (fun t => (t.reg 2, t.cond)) = some (0x1230, 0b001) := by decide
theorem test_not :
    (after ((one 0x947F).setReg 1 0x1234)).map (fun t => (t.reg 2, t.cond)) = some (0xEDCB, 0b100) := by decide

/-! ### Control (L2-3) -/

theorem test_br_wraps_at_the_top :
    (after ((at' 0xFFFF [(0xFFFF, 0x0E01)]).setCond 0b001)).map (·.pc) = some 0x0001 := by decide
theorem test_br_not_taken : (after (one 0x0205)).map (·.pc) = some 0x3001 := by decide
theorem test_jmp : (after ((one 0xC0C0).setReg 3 0x1234)).map (·.pc) = some 0x1234 := by decide
theorem test_jsr : (after (one 0x4C00)).map (fun t => (t.reg 7, t.pc)) = some (0x3001, 0x2C01) := by decide
theorem test_jsrr_r7_default :
    (after ((one 0x41C0).setReg 7 0x5000)).map (fun t => (t.reg 7, t.pc)) = some (0x3001, 0x3001) := by decide
theorem test_jsrr_r7_base_first :
    (after { (one 0x41C0).setReg 7 0x5000 with params := { jsrrBaseFirst := true } }).map
      (fun t => (t.reg 7, t.pc)) = some (0x3001, 0x5000) := by decide

/-! ### Loads and stores (L2-4) -/

theorem test_ld_own_word : (after (one 0x21FF)).map (fun t => (t.reg 0, t.cond)) = some (0x21FF, 0b001) := by decide
theorem test_ld_at_the_top :
    (after (at' 0xFFFF [(0x0001, 0x0042), (0xFFFF, 0x2001)])).map (fun t => (t.pc, t.reg 0, t.cond)) =
      some (0, 0x0042, 0b001) := by decide
theorem test_ldi :
    (after (at' 0x3000 [(0x3000, 0xA201), (0x3002, 0x4000), (0x4000, 0xFFFF)])).map (fun t => (t.reg 1, t.cond)) =
      some (0xFFFF, 0b100) := by decide
theorem test_ldr_wraps :
    (after ((at' 0x3000 [(0x3000, 0x62A0), (0xFFF0, 7)]).setReg 2 0x0010)).map (fun t => (t.reg 1, t.cond)) =
      some (7, 0b001) := by decide
theorem test_ldr_polls_kbsr :
    (after { (one 0x6280).setReg 2 0xFE00 with ready := ⟨[true], []⟩, input := ⟨[.unit 0x78], []⟩ }).map
      (fun t => (t.reg 1, t.cond, t.cell 0xFE02, t.input)) = some (0x8000, 0b100, 0x78, {}) := by decide
theorem test_lea_sets_flag :
    (after (at' 0x7FFF [(0x7FFF, 0xE000)])).map (fun t => (t.reg 0, t.cond)) = some (0x8000, 0b100) := by decide
theorem test_st :
    (after ((at' 0x3002 [(0x3002, 0x3005)]).setReg 0 0x3006)).map (fun t => (t.cell 0x3008, t.cond)) =
      some (0x3006, 0b010) := by decide
theorem test_sti :
    (after ((at' 0x3000 [(0x3000, 0xB201), (0x3002, 0x4000)]).setReg 1 0x00AB)).map (·.cell 0x4000) = some 0x00AB := by
  decide
theorem test_str_wraps :
    (after (((one 0x7401).setReg 0 0xFFFF).setReg 2 0x1111)).map (·.cell 0) = some 0x1111 := by decide
theorem test_str_to_kbsr_does_not_poll :
    (after { ((one 0x7040).setReg 0 0x1234).setReg 1 0xFE00 with ready := ⟨[true], []⟩, input := ⟨[.unit 1], []⟩ }).map
      (fun t => (t.cell 0xFE00, t.ready)) = some (0x1234, ⟨[true], []⟩) := by decide

/-! ### TRAP (L2-5, L1-2, L1-3) -/

theorem test_getc :
    (after { one 0xF020 with ready := ⟨[true], []⟩, input := ⟨[.unit 0x41], []⟩ }).map (fun t => (t.reg 0, t.out, t.cond, t.phase)) =
      some (0x0041, [], 0b010, .cycle) := by decide
theorem test_getc_at_end_of_input :
    (after { one 0xF020 with ready := ⟨[true], []⟩, input := ⟨[.endOfInput], []⟩ }).map (fun t => t.reg 0) =
      some Config.eofValue := rfl
theorem test_out : (after ((one 0xF021).setReg 0 0x1241)).map (·.out) = some [0x41] := by decide
theorem test_out_links_r7 :
    (after { (one 0xF021).setReg 0 0x41 with params := { trapLinksR7 := true } }).map (fun t => (t.reg 7, t.out)) =
      some (0x3001, [0x41]) := by decide
theorem test_puts_writes_hi :
    ((((after ((at' 0x3000 [(0x3000, 0xF022), (0x4000, 0x48), (0x4001, 0x69)]).setReg 0 0x4000)).bind after).bind
      after)).map (fun t => (t.out, t.phase, t.pc)) = some ([0x48, 0x69], .cycle, 0x3001) := by decide
theorem test_puts_stops_at_kbsr :
    ((after ((at' 0x3000 [(0x3000, 0xF022), (0xFDFF, 0x41), (0xFE00, 0x7)]).setReg 0 0xFDFF)).bind after).map
      (fun t => (t.out, t.cell 0xFE00, t.phase)) = some ([0x41], 0, .cycle) := by decide
theorem test_puts_passes_kbsr_on_a_key :
    (after { State.reset with phase := .puts 0xFE00, ready := ⟨[], [true]⟩, input := ⟨[], [.unit 0x61]⟩ }).map
      (fun t => (t.out, t.phase, t.offered)) = some ([0], .puts 0xFE01, some (.unit 0x61)) := by decide
theorem test_in_prompts_and_echoes :
    (after { one 0xF023 with ready := ⟨[true], []⟩, input := ⟨[.unit 0x79], []⟩ }).map (fun t => (t.out, t.reg 0)) =
      some (([] ++ Config.inPrompt) ++ [0x79], 0x0079) := rfl
theorem test_in_sets_flags :
    (after { one 0xF023 with
      ready := ⟨[true], []⟩, input := ⟨[.unit 0x79], []⟩, params := { trapInputSetsFlags := true } }).map (·.cond) =
      some 0b001 := by decide
theorem test_putsp_writes_ai :
    ((after ((at' 0x3000 [(0x3000, 0xF024), (0x4000, 0x6941)]).setReg 0 0x4000)).bind after).map
      (fun t => (t.out, t.phase)) = some ([0x41, 0x69], .cycle) := by decide
theorem test_putsp_low_byte_zero :
    (after ((at' 0x3000 [(0x3000, 0xF024), (0x4000, 0x4100)]).setReg 0 0x4000)).map (fun t => (t.out, t.phase)) =
      some ([], .cycle) := by decide
theorem test_halt : (after (one 0xF025)).map (fun t => (t.run, t.pc)) = some (.halted, 0x3001) := by decide
theorem test_unknown_vector_halts : (after (one 0xF0FF)).map (·.run) = some .halted := by decide

/-! ### Illegal opcodes, the cycle and stop requests (L2-6) -/

theorem test_illegal8 : (after (one 0x8FFF)).map (fun t => (t.run, t.pc)) = some (.illegal, 0x3001) := by decide
theorem test_illegal_is_reported :
    (after (one 0xDFFF)).bind faultOf = some (.illegalInstruction 0xDFFF 0x3000) := by decide
theorem test_fetch_at_kbsr_polls :
    (after { at' 0xFE00 [(0xFE00, 0x1234)] with ready := ⟨[true], []⟩, input := ⟨[.unit 0x61], []⟩ }).map
      (fun t => (t.run, t.pc, t.cell 0xFE02)) = some (.illegal, 0xFE01, 0x0061) := by decide
theorem test_stop_wins_over_halt :
    (after { one 0xF025 with stop := true }).map (fun t => (t.run, t.pc, t.out)) =
      some (.interrupted, 0x3000, []) := by decide
theorem test_stop_ends_a_blocked_getc :
    ((after { one 0xF020 with stops := [false, true] }).bind after).map (fun t => (t.run, t.reg 0)) =
      some (.interrupted, 0) := by decide
theorem test_halted_is_final : faultOf { State.reset with run := .halted } = some .halted := by decide

/-! ### Loading (L1-5) -/

theorem test_last_image_wins :
    (imageOfBytes [0x30, 0x00, 0x11, 0x11, 0x22, 0x22, 0x33, 0x33]).bind (fun a =>
      (imageOfBytes [0x30, 0x01, 0xAA, 0xAA]).map (fun b => loadImages [a, b] [])) =
      some [(0x3000, 0x1111), (0x3001, 0xAAAA), (0x3002, 0x3333)] := by decide
theorem test_loading_does_not_wrap : loadImages [⟨0xFFFF, [1, 2]⟩] [] = [(0xFFFF, 1)] := by decide

/-! ### Witnesses: a concrete state and operands that meet the hypotheses of each obligation -/

/-- A running state inside a service, with host answers. -/
def inPhase (p : Phase) (ready : List Bool) (input : List Code) (stops : List Bool) : State :=
  { State.reset with phase := p, ready := ⟨ready, []⟩, input := ⟨input, []⟩, stops := stops }

/-- "H", "i", zero at 0x4000, for PUTS under way there. -/
def putsHi : State := { inPhase (.puts 0x4000) [] [] [] with mem := [(0x4000, 0x48), (0x4001, 0x69)] }

/-- `DecodeInvertsEncode`. -/
theorem witness_wellFormed : Instr.wellFormed (.trap 0xFF) = true := by decide

/-- `IgnoredBitsDoNotMatter`, one word for each clause. -/
theorem witness_ignored_bits :
    (bits 0x1FDF 15 12 = 0b0001 ∧ (0x1FDF : Word).getLsbD 5 = false) ∧
    (bits 0x5000 15 12 = 0b0101 ∧ (0x5000 : Word).getLsbD 5 = false) ∧ bits 0x9FFF 15 12 = 0b1001 ∧
    bits 0xCFFF 15 12 = 0b1100 ∧ (bits 0x47FF 15 12 = 0b0100 ∧ (0x47FF : Word).getLsbD 11 = false) ∧
    bits 0xFFFF 15 12 = 0b1111 ∧ bits 0x8FFF 15 12 = 0b1000 ∧ bits 0xDFFF 15 12 = 0b1101 := by decide

/-- `IllegalWordsAreTwoRanges`, both ends of each range. -/
theorem witness_illegal_ranges :
    decode 0x8000 = .illegal8 ∧ decode 0x8FFF = .illegal8 ∧ decode 0xD000 = .illegalD ∧ decode 0xDFFF = .illegalD := by
  decide

/-- `SignExtensionFillsFromTheTopBit`, at both ends of the width. -/
theorem witness_widths : (1 ≤ 1 ∧ 1 ≤ 16) ∧ (1 ≤ 16 ∧ 16 ≤ 16) := by decide

/-- `OtherReadsArePure`: the cells on both sides of KBSR. -/
theorem witness_plain_addresses : (0xFDFF : Word) ≠ kbsrAddr ∧ (0xFE01 : Word) ≠ kbsrAddr := by decide

/-- `SecondPollFindsNothing`. -/
theorem witness_one_key :
    (inPhase .cycle [true] [.unit 0x6B] []).offered = some (.unit 0x6B) ∧
    (inPhase .cycle [true] [.unit 0x6B] []).input.tail.head? = none := by decide

/-- `CanonicalMemoriesAgreeWhenReadsDo`. -/
theorem witness_canonical_memory : Memory.wf [(0, 1), (65535, 0xFFFF)] = true := by decide

/-- `LastLoadedImageWins`: the last address. -/
theorem witness_last_address : (65535 : Nat) < 65536 := by decide

/-- The encoding clauses of the instruction statements: a word of each row (R140 to R180). -/
theorem witness_row_words :
    (0x1642 : Word) &&& 0xF020 = 0x1000 ∧ (0x1025 : Word) &&& 0xF020 = 0x1020 ∧ (0x5642 : Word) &&& 0xF020 = 0x5000 ∧
    (0x5020 : Word) &&& 0xF020 = 0x5020 ∧ (0x947F : Word) &&& 0xF000 = 0x9000 ∧ (0x0402 : Word) &&& 0xF000 = 0x0000 ∧
    (0xC1C0 : Word) &&& 0xF000 = 0xC000 ∧ (0x4802 : Word) &&& 0xF800 = 0x4800 ∧ (0x4080 : Word) &&& 0xF800 = 0x4000 ∧
    (0x2202 : Word) &&& 0xF000 = 0x2000 ∧ (0xA603 : Word) &&& 0xF000 = 0xA000 ∧ (0x6200 : Word) &&& 0xF000 = 0x6000 ∧
    (0xE005 : Word) &&& 0xF000 = 0xE000 ∧ (0x3005 : Word) &&& 0xF000 = 0x3000 ∧ (0xB201 : Word) &&& 0xF000 = 0xB000 ∧
    (0x7401 : Word) &&& 0xF000 = 0x7000 ∧ (0x8FFF : Word) &&& 0xF000 = 0x8000 ∧ (0xDFFF : Word) &&& 0xF000 = 0xD000 ∧
    (0xFF25 : Word) &&& 0xF000 = 0xF000 := by decide

/-- `GetcStoresTheDeliveredCode`, `InPromptsEchoesAndStores`: a listed code unit, and an end of input told for ever. -/
theorem witness_delivered_code :
    (inPhase .cycle [true] [.unit 0x41] []).offered = some (.unit 0x41) ∧
    ({ State.reset with ready := ⟨[], [true]⟩, input := ⟨[], [.endOfInput]⟩ } : State).offered = some .endOfInput := by
  decide

/-- `GetcAndInWaitForInput`: the host declines with input there, accepts with none, and has no answer left. -/
theorem witness_delayed_code :
    (inPhase .cycle [false] [.unit 0x41] []).offered = none ∧ (inPhase .cycle [true] [] []).offered = none ∧
    State.reset.offered = none := by decide

/-- `PutsWritesOneCellAStep`, `PutsGoesOnWithoutATerminator` (two cells), `PutsWritesTheWholeString`. -/
theorem witness_puts :
    putsHi.run = .running ∧ putsHi.phase = .puts 0x4000 ∧
    (∀ i, i < 2 → (0x4000 : Word) + BitVec.ofNat 16 i ≠ kbsrAddr ∧ putsHi.cell (0x4000 + BitVec.ofNat 16 i) ≠ 0) ∧
    (0x4000 : Word) + BitVec.ofNat 16 2 ≠ kbsrAddr ∧ putsHi.cell (0x4000 + BitVec.ofNat 16 2) = 0 := by decide

/-- A memory that holds 1 in each of its first `n` cells. -/
def ones (n : Nat) : Memory := (List.range' 0 n).map fun k => (k, 1)

theorem ones_read {n a : Nat} (h : a < n) : (ones n).read a = 1 := by
  suffices ∀ m k, k ≤ a → a < k + m → Memory.read ((List.range' k m).map fun k => (k, 1)) a = 1 from
    this n 0 (Nat.zero_le a) (by omega)
  intro m
  induction m with
  | zero => omega
  | succ m ih =>
    intro k hk ha
    rw [List.range'_succ, List.map_cons, Memory.read]
    split
    · rfl
    · exact ih (k + 1) (by omega) (by omega)

/-- PUTS under way at 0x0000 in a memory with no zero cell, with a host that repeats one key for ever. -/
def endlessPuts : State :=
  { State.reset with phase := .puts 0, mem := ones 65536, ready := ⟨[], [true]⟩, input := ⟨[], [.unit 0x6B]⟩ }

/-- `PutsGoesOnWithoutATerminator`, the endless clause. -/
theorem witness_endless_puts :
    endlessPuts.run = .running ∧ endlessPuts.phase = .puts 0 ∧ (∀ b, b ≠ kbsrAddr → endlessPuts.cell b ≠ 0) ∧
    ∀ k, (endlessPuts.ready.drop k).head? = some true ∧
      ∃ c : Code, (endlessPuts.input.drop k).head? = some c ∧ c.word ≠ 0 := by
  refine ⟨rfl, rfl, fun b _ => ?_, fun k => ⟨Feed.drop_repeat _ k, _, Feed.drop_repeat _ k, by decide⟩⟩
  show (ones 65536).read b.toNat ≠ 0
  rw [ones_read b.isLt]
  decide

/-- `PutspWritesTwoBytesACell`, `PutspEndsWithinTheAddressSpace`: at the address after KBSR, the farthest from it. -/
theorem witness_putsp :
    (inPhase (.putsp 0xFE01) [] [] []).run = .running ∧ (inPhase (.putsp 0xFE01) [] [] []).phase = .putsp 0xFE01 := by
  decide

/-- `HaltEndsTheRunWithTheNotice`: HALT's vector and the two next to the services. -/
theorem witness_halting_vectors :
    ∀ v ∈ [(0x1F : BitVec 8), 0x25, 0x26], v ≠ 0x20 ∧ v ≠ 0x21 ∧ v ≠ 0x22 ∧ v ≠ 0x23 ∧ v ≠ 0x24 := by decide

/-- `WaitingCoreHoldsUntilTheHostActs`, clause one: a stop arrives in either wait. -/
theorem witness_wait_stop :
    StopSeen (inPhase .getcWait [] [] [true]) ∧ StopSeen { inPhase .inWait [] [] [] with stop := true } :=
  ⟨.inr rfl, .inl rfl⟩

/-- `WaitingCoreHoldsUntilTheHostActs`, clause two: no stop and no code. -/
theorem witness_wait_holds :
    ¬ StopSeen (inPhase .inWait [false] [.unit 1] [false]) ∧
    (inPhase .inWait [false] [.unit 1] [false]).offered = none := by
  exact ⟨by simp [StopSeen, inPhase, State.reset], rfl⟩

/-- `WaitingCoreHoldsUntilTheHostActs`, clause three: no stop and a code. -/
theorem witness_wait_delivers :
    ¬ StopSeen (inPhase .getcWait [true] [.unit 1] []) ∧ (inPhase .getcWait [true] [.unit 1] []).offered = some (.unit 1) := by
  exact ⟨by simp [StopSeen, inPhase, State.reset], rfl⟩

/-- `StepRunsTheDecodedInstruction`, both clauses; `NothingElseStopsTheMachine`. -/
theorem witness_cycle :
    State.reset.run = .running ∧ State.reset.phase = .cycle ∧ ¬ StopSeen State.reset ∧
    StopSeen { State.reset with stop := true } := by
  simp [StopSeen, State.reset]

/-- `FinalStatesHaveNoStep`: a final state and a running one. -/
theorem witness_final : faultOf { State.reset with run := .interrupted } = some .interrupted ∧ (after State.reset).isSome := by
  decide

/-- `IllegalWordIsReportedPrecisely`: its hypotheses at the last word of each range. -/
theorem witness_illegal_word :
    ((one 0x8FFF).run = .running ∧ (one 0x8FFF).phase = .cycle ∧ (one 0x8FFF).stop = false ∧ (one 0x8FFF).stops = [] ∧
      (one 0x8FFF).pc ≠ kbsrAddr ∧ ReservedWord ((one 0x8FFF).cell (one 0x8FFF).pc)) ∧
    ((one 0xDFFF).run = .running ∧ (one 0xDFFF).phase = .cycle ∧ (one 0xDFFF).stop = false ∧ (one 0xDFFF).stops = [] ∧
      (one 0xDFFF).pc ≠ kbsrAddr ∧ ReservedWord ((one 0xDFFF).cell (one 0xDFFF).pc)) :=
  ⟨⟨rfl, rfl, rfl, rfl, by decide, .inl (by decide)⟩, ⟨rfl, rfl, rfl, rfl, by decide, .inr (by decide)⟩⟩

/-- `RunsEndOnlyByTheirThreeEvents`: a step into each final state. -/
theorem witness_run_ends :
    (after (one 0xF000)).map (·.run) = some .halted ∧ (after (one 0xD000)).map (·.run) = some .illegal ∧
    (after { one 0x0000 with stop := true }).map (·.run) = some .interrupted := by decide

/-- `ExitStatusesTellTheEndsApart`. -/
theorem witness_exit_statuses : ExitStatuses.wf ⟨2, 1, 3, -2⟩ = true := by decide

/-- `ResetLeavesTheValuesOfTheTable`: an image that does not cover the cell before its origin. -/
theorem witness_uncovered_cell : ∀ i ∈ [Image.mk 0x3000 [1, 2]], i.wordAt 0x2FFF = none := by decide

/-- `BootFailsBeforeTheMachineExists`: each of the three outcomes. -/
theorem witness_boot (c : Setup) :
    bootWith c [] = .usageError ∧ bootWith c [some ⟨0x3000, [1]⟩, none] = .loadError ∧
    bootWith c ([Image.mk 0x3000 [1]].map some) = .started (State.boot c [⟨0x3000, [1]⟩]) := ⟨rfl, rfl, rfl⟩

/-- `EveryStepKeepsTheInvariant`, `HostSideOnlyMovesForward` (with the stop flag set): a state that meets the
invariant and steps. -/
theorem witness_invariant_step :
    ({ State.reset with stop := true } : State).Inv ∧ (after { State.reset with stop := true }).isSome :=
  ⟨⟨by decide, .inr (.inl rfl), by decide, fun h => by simp [State.reset] at h⟩, by decide⟩

/-- The whole-machine statements over `exec`: an instruction of each kind answers a next state. -/
theorem witness_exec_answers :
    (∃ t, exec (.jsrr 7) State.reset = .next t) ∧ (∃ t, exec (.lea 0 1) State.reset = .next t) ∧
    (∃ t, exec (.trap 0x23) State.reset = .next t) ∧ (∀ m o, Instr.jmp 0 ≠ .br m o) ∧
    mayWriteReg {} 6 (.trap 0x20) = false :=
  ⟨⟨_, rfl⟩, ⟨_, rfl⟩, ⟨_, rfl⟩, fun _ _ => nofun, by decide⟩

/-- `TrapServicesWriteNoMemory`: vectors beside the string services, and IN without the fall-through. -/
theorem witness_trap_vectors :
    ((0x21 : BitVec 8) ≠ 0x22 ∧ (0x21 : BitVec 8) ≠ 0x24) ∧ ((0x23 : BitVec 8) ≠ 0x22 ∧ (0x23 : BitVec 8) ≠ 0x24 ∧
      State.reset.params.inFallthrough = false) := by decide

/-- `StoreIsSeenByTheNextFetch` (P6's ST, at 0x3001). -/
theorem witness_self_modifying :
    let s := at' 0x3001 [(0x3001, 0x3200)]
    s.run = .running ∧ s.phase = .cycle ∧ s.stop = false ∧ s.stops = [] ∧ s.pc ≠ kbsrAddr ∧ s.pc + 1 ≠ kbsrAddr ∧
      decode (s.cell s.pc) = .st 1 0 := by decide

end Sys2Proof.Tests
end

/-! ## Sign extension (R14) -/

namespace Sys2Proof.Machine

/-- R14's first case. -/
theorem sext_eq_zeroExtend {n : Nat} {v : BitVec n} (h : v.msb = false) : sext v = v.zeroExtend 16 :=
  BitVec.signExtend_eq_setWidth_of_msb_false h

/-- The bits of R14's fill word `(0xFFFF << n) mod 2^16`: exactly those at `n` and above. -/
theorem getLsbD_ones_shiftLeft {n i : Nat} (hi : i < 16) :
    ((0xFFFF : Word) <<< n).getLsbD i = decide (n ≤ i) := by
  have ones : (0xFFFF : Word) = BitVec.allOnes 16 := by decide
  have shifted : i - n < 16 := by omega
  rw [ones, BitVec.getLsbD_shiftLeft, BitVec.getLsbD_allOnes]
  simp [hi, shifted, ← decide_not]

/-- R14's second case, bit by bit: inside the field both sides are `v`'s bit, above it both are 1. -/
theorem sext_eq_zeroExtend_or_ones {n : Nat} {v : BitVec n} (h : v.msb = true) :
    sext v = v.zeroExtend 16 ||| ((0xFFFF : Word) <<< n) := by
  apply BitVec.eq_of_getLsbD_eq
  intro i hi
  rw [sext, BitVec.getLsbD_signExtend, h, BitVec.getLsbD_or, BitVec.getLsbD_setWidth, getLsbD_ones_shiftLeft hi]
  by_cases inField : i < n
  · simp [hi, inField]
  · simp [hi, inField, Nat.le_of_not_lt inField]

/-- Settles O6, by cases on the field's top bit. -/
theorem signExtensionFillsFromTheTopBit : Obligations.SignExtensionFillsFromTheTopBit := by
  intro n v _ _
  rw [← BitVec.msb_eq_getLsbD_last]
  cases h : v.msb
  case false => exact sext_eq_zeroExtend h
  case true => exact sext_eq_zeroExtend_or_ones h

end Sys2Proof.Machine

/-! ## The condition code (R39, R40) -/

namespace Sys2Proof.Machine

/-- R40 reads the sign off bit 15; `FlagOf` reads it off the unsigned value. -/
theorem flagOf_condOf (v : Word) : FlagOf v (condOf v) := by
  have sign : v.getLsbD 15 = decide (0x8000 ≤ v.toNat) := BitVec.msb_eq_decide v
  simp only [FlagOf, condOf, sign, decide_eq_true_eq]
  rfl

/-- A flag of a value is one of the three (R39). -/
theorem FlagOf.oneHot {v : Word} {c : BitVec 3} (h : FlagOf v c) : OneHot c := by
  have unique : c = condOf v := h.trans (flagOf_condOf v).symm
  exact unique ▸ condOf_oneHot v

/-- Settles O7: `setcc` is a single update of `cond`, so every other field is the old one by definition. -/
theorem setccSetsTheFlagOfTheValue : Obligations.SetccSetsTheFlagOfTheValue := fun v _ =>
  ⟨flagOf_condOf v, fun _ => rfl, rfl, fun _ => rfl, ⟨rfl, ⟨rfl, rfl⟩, rfl, rfl⟩, rfl, rfl, rfl⟩

end Sys2Proof.Machine

/-! ## The canonical form of memory (log 18) -/

namespace Sys2Proof.Machine

/-- A cell that does not read as zero is listed. -/
theorem Memory.mem_of_read_ne_zero {m : Memory} {a : Nat} (h : m.read a ≠ 0) : (a, m.read a) ∈ m := by
  induction m with
  | nil => exact absurd rfl h
  | cons c m ih =>
    by_cases hc : c.1 = a
    · simp [Memory.read, ← hc]
    · simp only [Memory.read, hc, if_false] at h ⊢
      exact List.mem_cons_of_mem c (ih h)

/-- Where addresses strictly rise, a listed cell is the one its address reads. -/
theorem Memory.read_of_mem {m : Memory} (rising : m.Pairwise fun c d => c.1 < d.1) {c : Cell} (h : c ∈ m) :
    m.read c.1 = c.2 := by
  induction m with
  | nil => cases h
  | cons d m ih =>
    obtain ⟨below, rising⟩ := List.pairwise_cons.mp rising
    rcases List.mem_cons.mp h with rfl | h
    · simp [Memory.read]
    · simpa [Memory.read, (below c h).ne] using ih rising h

/-- A canonical memory lists exactly the cells that do not read as zero. -/
theorem Memory.mem_iff_read {m : Memory} (hm : m.wf = true) (c : Cell) :
    c ∈ m ↔ c.1 < 65536 ∧ c.2 ≠ 0 ∧ m.read c.1 = c.2 := by
  obtain ⟨rising, bounded⟩ := m.wf_iff.mp hm
  constructor
  · intro h
    exact ⟨(bounded c h).1, (bounded c h).2, Memory.read_of_mem rising h⟩
  · rintro ⟨-, nonzero, read⟩
    have listed := Memory.mem_of_read_ne_zero (read ▸ nonzero)
    rwa [read] at listed

theorem Memory.nodup_of_wf {m : Memory} (hm : m.wf = true) : m.Nodup :=
  (m.wf_iff.mp hm).1.imp fun lt e => lt.ne (congrArg Prod.fst e)

/-- Settles O12: the reads fix which cells are listed, and the rising order fixes their places. -/
theorem canonicalMemoriesAgreeWhenReadsDo : Obligations.CanonicalMemoriesAgreeWhenReadsDo := by
  intro m n hm hn sameReads
  have sameCells : ∀ c, c ∈ m ↔ c ∈ n := by
    intro c
    rw [Memory.mem_iff_read hm, Memory.mem_iff_read hn]
    exact and_congr_right fun ha => by rw [sameReads c.1 ha]
  have perm : m.Perm n :=
    (List.perm_ext_iff_of_nodup (Memory.nodup_of_wf hm) (Memory.nodup_of_wf hn)).mpr sameCells
  exact perm.eq_of_pairwise (fun _ _ _ _ lt gt => absurd lt gt.not_gt) (m.wf_iff.mp hm).1 (n.wf_iff.mp hn).1

end Sys2Proof.Machine

/-! ## Reset and boot (R231) -/

namespace Sys2Proof.Machine

/-- One stored word of an image, or none beyond the top (R80), as the cells below 65536 see it. -/
theorem Memory.read_storeWord (m : Memory) (k : Nat) (w : Word) {a : Nat} (ha : a < 65536) :
    (if k ≤ 0xFFFF then m.write k w else m).read a = if a = k then w else m.read a := by
  by_cases hk : a = k
  · subst hk
    rw [if_pos (by omega), if_pos rfl, Memory.read_write_same]
  · rw [if_neg hk]
    split
    · exact m.read_write_other w hk
    · rfl

/-- A cell after words are stored from `k` upward: the word that lands there, or else what it held (R80). -/
theorem storeWords_read (ws : List Word) (k : Nat) (m : Memory) {a : Nat} (ha : a < 65536) :
    (storeWords k ws m).read a = (if k ≤ a then ws[a - k]? else none).getD (m.read a) := by
  induction ws generalizing k m with
  | nil => simp [storeWords]
  | cons w ws ih =>
    rw [storeWords, ih, Memory.read_storeWord m k w ha]
    rcases Nat.lt_trichotomy a k with below | rfl | above
    · rw [if_neg (by omega), if_neg (by omega), if_neg (by omega)]
    · simp
    · have shifted : a - k = a - (k + 1) + 1 := by omega
      rw [if_pos (by omega : k + 1 ≤ a), if_pos above.le, if_neg above.ne', shifted, List.getElem?_cons_succ]

/-- A cell after one image is loaded (R80). -/
theorem storeWords_image_read (i : Image) (m : Memory) {a : Nat} (ha : a < 65536) :
    (storeWords i.origin.toNat i.words m).read a = (i.wordAt a).getD (m.read a) :=
  storeWords_read i.words i.origin.toNat m ha

/-- A cell that no image covers keeps what it held (R55, R80). -/
theorem loadImages_read_uncovered (is : List Image) (m : Memory) {a : Nat} (ha : a < 65536)
    (uncovered : ∀ i ∈ is, i.wordAt a = none) : (loadImages is m).read a = m.read a := by
  induction is generalizing m with
  | nil => rfl
  | cons i is ih =>
    have here := uncovered i (by simp)
    rw [loadImages, ih _ fun j hj => uncovered j (by simp [hj]), storeWords_image_read i m ha, here, Option.getD_none]

theorem State.boot_reg (c : Setup) (images : List Image) (r : Reg) :
    (State.boot c images).reg r = if c.resetRegs = .zero then 0 else c.regs.get r := by
  cases h : c.resetRegs with
  | zero =>
    have regs : (State.boot c images).regs = State.reset.regs := by simp [State.boot, h]
    simpa [State.reg, regs] using State.reset_reg r
  | arbitrary => simp [State.reg, State.boot, h]

/-- Settles O49: images and setup reach neither pc nor run. -/
theorem startsRunningAtStartPc : Obligations.StartsRunningAtStartPc := fun _ _ => ⟨rfl, rfl⟩

/-- Settles O50: the table's values are those of `State.reset`; of a boot only the registers and the cells need an
argument. -/
theorem resetLeavesTheValuesOfTheTable : Obligations.ResetLeavesTheValuesOfTheTable := by
  refine ⟨State.reset_reg, rfl, fun _ => rfl, rfl, rfl, rfl, rfl, fun c images => ?_⟩
  exact ⟨State.boot_reg c images, rfl, rfl, rfl, fun a h => loadImages_read_uncovered images [] a.isLt h⟩

/-- While the machine runs, the invariant's clauses about final states are void. -/
theorem State.Inv.of_running {s : State} (run : s.run = .running) (mem : s.mem.wf = true) (cond : OneHot s.cond) :
    s.Inv where
  mem_wf := mem
  cond_oneHot := cond
  final_cycle := fun final => absurd run final
  illegal_word := fun illegal => nomatch illegal.symm.trans run

/-- Settles O52: the loader keeps memory canonical, and reset sets the flag Z. -/
theorem resetMeetsTheInvariant : Obligations.ResetMeetsTheInvariant :=
  have flagZ : OneHot condZ := .inr (.inl rfl)
  ⟨.of_running rfl rfl flagZ, fun _ images => .of_running rfl (loadImages_wf images rfl) flagZ⟩

end Sys2Proof.Machine

/-! ## Host side and quiet changes

`HostForward` is what every step does to the host's side. `Quiet` is what reads of memory, asks of the host and writes
to the console have in common: they touch no register, flag, pc or run state, and memory stays canonical. -/

namespace Sys2Proof.Machine

/-- From `s` to `t` the host's side only moves forward, and no parameter changes (R49, R206, R214; log 11). -/
structure HostForward (s t : State) : Prop where
  out : ∃ new, t.out = s.out ++ new
  input : ∃ n, t.input = s.input.drop n
  ready : ∃ n, t.ready = s.ready.drop n
  stop : s.stop = true → t.stop = true
  params : t.params = s.params

/-- Updates of other fields leave the host's side where it is. -/
theorem HostForward.of_same {s t : State} (out : t.out = s.out) (input : t.input = s.input) (ready : t.ready = s.ready)
    (stop : t.stop = s.stop) (params : t.params = s.params) : HostForward s t :=
  ⟨⟨[], by rw [out, List.append_nil]⟩, ⟨0, input⟩, ⟨0, ready⟩, stop.trans, params⟩

theorem HostForward.refl (s : State) : HostForward s s := .of_same rfl rfl rfl rfl rfl

theorem HostForward.trans {s t u : State} (h : HostForward s t) (h' : HostForward t u) : HostForward s u where
  out := by
    obtain ⟨new, e⟩ := h.out
    obtain ⟨new', e'⟩ := h'.out
    exact ⟨new ++ new', by rw [e', e, List.append_assoc]⟩
  input := by
    obtain ⟨n, e⟩ := h.input
    obtain ⟨n', e'⟩ := h'.input
    exact ⟨n + n', by rw [e', e, Feed.drop_drop]⟩
  ready := by
    obtain ⟨n, e⟩ := h.ready
    obtain ⟨n', e'⟩ := h'.ready
    exact ⟨n + n', by rw [e', e, Feed.drop_drop]⟩
  stop := h'.stop ∘ h.stop
  params := h'.params.trans h.params

theorem takeCode_hostForward (s : State) : HostForward s (takeCode s).2 where
  out := ⟨[], by simp⟩
  input := (takeCode_uses s).2
  ready := ⟨1, (takeCode_uses s).1⟩
  stop := fun h => by simpa using h
  params := takeCode_params s

/-- A poll uses the host's side as the ask it makes does, and stores besides (R66). -/
theorem keyboardPoll_hostForward (s : State) : HostForward s (keyboardPoll s) := by
  have ask := takeCode_hostForward s
  obtain ⟨c, offered, poll⟩ | ⟨offered, poll⟩ := keyboardPoll_cases s
  · rw [takeCode_some offered] at ask
    rw [poll]
    exact ask.trans (.of_same rfl rfl rfl rfl rfl)
  · rw [takeCode_none offered] at ask
    rw [poll]
    exact ask.trans (.of_same rfl rfl rfl rfl rfl)

theorem memRead_hostForward (a : Word) (s : State) : HostForward s (memRead a s).2 := by
  by_cases ha : a = kbsrAddr
  · subst ha
    exact keyboardPoll_hostForward s
  · rw [memRead_pure s ha]
    exact .refl s

theorem fetch_hostForward (s : State) : HostForward s (fetch s).2 :=
  (memRead_hostForward s.pc s).trans (.of_same rfl rfl rfl rfl rfl)

theorem consoleWriteAll_hostForward (bs : List Byte) (s : State) : HostForward s (consoleWriteAll bs s) :=
  ⟨⟨bs, rfl⟩, ⟨0, rfl⟩, ⟨0, rfl⟩, id, rfl⟩

theorem stopRequested_hostForward (s : State) : HostForward s (stopRequested s).2 := by
  rw [stopRequested_eq]
  exact ⟨⟨[], (List.append_nil _).symm⟩, ⟨0, rfl⟩, ⟨0, rfl⟩, fun h => by simp [h], rfl⟩

/-- From `s` to `t` only the phase, the host's side and cells can change: the host's side moves forward, and memory
stays canonical. -/
structure Quiet (s t : State) : Prop where
  regs : t.regs = s.regs
  pc : t.pc = s.pc
  cond : t.cond = s.cond
  run : t.run = s.run
  mem_wf : s.mem.wf = true → t.mem.wf = true
  host : HostForward s t

theorem Quiet.refl (s : State) : Quiet s s := ⟨rfl, rfl, rfl, rfl, id, .refl s⟩

theorem Quiet.trans {s t u : State} (h : Quiet s t) (h' : Quiet t u) : Quiet s u :=
  ⟨h'.regs.trans h.regs, h'.pc.trans h.pc, h'.cond.trans h.cond, h'.run.trans h.run, h'.mem_wf ∘ h.mem_wf,
    h.host.trans h'.host⟩

theorem Quiet.reg {s t : State} (h : Quiet s t) (r : Reg) : t.reg r = s.reg r := by
  rw [State.reg, h.regs, State.reg]

theorem setPhase_quiet (p : Phase) (s : State) : Quiet s (s.setPhase p) :=
  ⟨rfl, rfl, rfl, rfl, id, .of_same rfl rfl rfl rfl rfl⟩

theorem consoleWriteAll_quiet (bs : List Byte) (s : State) : Quiet s (consoleWriteAll bs s) :=
  ⟨rfl, rfl, rfl, rfl, id, consoleWriteAll_hostForward bs s⟩

theorem consoleWrite_quiet (b : Byte) (s : State) : Quiet s (consoleWrite b s) := consoleWriteAll_quiet [b] s

theorem takeCode_quiet (s : State) : Quiet s (takeCode s).2 :=
  ⟨takeCode_regs s, takeCode_pc s, takeCode_cond s, takeCode_run s, fun h => by rwa [takeCode_mem],
    takeCode_hostForward s⟩

theorem stopRequested_quiet (s : State) : Quiet s (stopRequested s).2 := by
  have host := stopRequested_hostForward s
  rw [stopRequested_eq] at host ⊢
  exact ⟨rfl, rfl, rfl, rfl, id, host⟩

theorem memRead_quiet (a : Word) (s : State) : Quiet s (memRead a s).2 :=
  ⟨memRead_regs a s, memRead_pc a s, memRead_cond a s, memRead_run a s, memRead_wf a, memRead_hostForward a s⟩

theorem putsCell_quiet (a : Word) (s : State) : Quiet s (putsCell a s) := by
  have read := memRead_quiet a s
  rw [putsCell_eq]
  split
  · exact read.trans (setPhase_quiet _ _)
  · exact (read.trans (consoleWrite_quiet _ _)).trans (setPhase_quiet _ _)

theorem putspCell_quiet (a : Word) (s : State) : Quiet s (putspCell a s) := by
  have read := memRead_quiet a s
  rw [putspCell_eq]
  split
  · exact read.trans (setPhase_quiet _ _)
  · have wrote := read.trans (consoleWrite_quiet (loByte (memRead a s).1) _)
    split
    · exact wrote.trans (setPhase_quiet _ _)
    · exact (wrote.trans (consoleWrite_quiet _ _)).trans (setPhase_quiet _ _)

end Sys2Proof.Machine

/-! ## What a trap service can do -/

namespace Sys2Proof.Machine

/-- From `s` to `t` a code is stored as GETC and IN store it, with only quiet changes before and after (R182, R186). -/
def StoresInput (s t : State) : Prop := ∃ c m, Quiet s m ∧ Quiet (storeInput c m) t

theorem Quiet.storesInput {s m t : State} (h : Quiet s m) (h' : StoresInput m t) : StoresInput s t := by
  obtain ⟨c, n, before, after⟩ := h'
  exact ⟨c, n, h.trans before, after⟩

theorem StoresInput.pc {s t : State} (h : StoresInput s t) : t.pc = s.pc := by
  obtain ⟨c, m, before, after⟩ := h
  rw [after.pc, storeInput_eq]
  exact before.pc

theorem StoresInput.run {s t : State} (h : StoresInput s t) : t.run = s.run := by
  obtain ⟨c, m, before, after⟩ := h
  rw [after.run, storeInput_eq]
  exact before.run

theorem StoresInput.mem_wf {s t : State} (h : StoresInput s t) (hs : s.mem.wf = true) : t.mem.wf = true := by
  obtain ⟨c, m, before, after⟩ := h
  rw [storeInput_eq] at after
  exact after.mem_wf (before.mem_wf hs)

theorem StoresInput.host {s t : State} (h : StoresInput s t) : HostForward s t := by
  obtain ⟨c, m, before, after⟩ := h
  have stored : HostForward m (storeInput c m) := by
    rw [storeInput_eq]
    exact .of_same rfl rfl rfl rfl rfl
  exact (before.host.trans stored).trans after.host

theorem StoresInput.reg_other {s t : State} (h : StoresInput s t) {r : Reg} (hr : r ≠ trapReg) :
    t.reg r = s.reg r := by
  obtain ⟨c, m, before, after⟩ := h
  rw [after.reg, storeInput_eq, State.setCond_reg, State.setReg_reg_other m c hr, before.reg]

/-- The flag follows R0 under TRAP_INPUT_SETS_FLAGS and stays otherwise (R182, R186; D15). -/
theorem StoresInput.cond {s t : State} (h : StoresInput s t) :
    t.cond = s.cond ∨ (s.params.trapInputSetsFlags = true ∧ FlagOf (t.reg trapReg) t.cond) := by
  obtain ⟨c, m, before, after⟩ := h
  have r0 : t.reg trapReg = c := by
    rw [after.reg, storeInput_eq, State.setCond_reg, State.setReg_reg_same]
  have cond : t.cond = if s.params.trapInputSetsFlags then condOf c else s.cond := by
    rw [after.cond, storeInput_eq, State.setCond_cond, before.host.params, before.cond]
  rw [r0, cond]
  split
  case isTrue flags => exact .inr ⟨flags, flagOf_condOf c⟩
  case isFalse => exact .inl rfl

theorem finishGetc_storesInput (c : Word) (s : State) : StoresInput s (finishGetc c s) :=
  ⟨c, s, .refl s, setPhase_quiet .cycle _⟩

theorem finishIn_storesInput (c : Word) (s : State) : StoresInput s (finishIn c s) := by
  refine ⟨c, consoleWrite (loByte c) s, consoleWrite_quiet _ s, ?_⟩
  cases through : s.params.inFallthrough
  case false =>
    rw [finishIn_eq c s through]
    exact setPhase_quiet _ _
  case true =>
    rw [finishIn_fallthrough c s through]
    exact (setPhase_quiet _ _).trans (putspCell_quiet c _)

/-- One attempt of a read, as GETC and IN make it in the TRAP's own step: `finish` with the code if the host delivers,
else `wait` (R183). -/
def readThen (finish : Word → State → State) (wait : State → State) (s : State) : State :=
  match takeCode s with
  | (some c, s1) => finish c s1
  | (none, s1) => wait s1

theorem trapGetc_eq (s : State) : trapGetc s = readThen finishGetc (·.setPhase .getcWait) s := rfl

theorem trapIn_eq (s : State) :
    trapIn s = readThen finishIn (·.setPhase .inWait) (consoleWriteAll Config.inPrompt s) := rfl

/-- An attempt of a read that waits quietly either is quiet or stores the code. -/
theorem readThen_cases {finish : Word → State → State} {wait : State → State}
    (stores : ∀ c s, StoresInput s (finish c s)) (waits : ∀ s, Quiet s (wait s)) (s : State) :
    Quiet s (readThen finish wait s) ∨ StoresInput s (readThen finish wait s) := by
  have ask := takeCode_quiet s
  unfold readThen
  split
  case h_1 c s1 e =>
    rw [e] at ask
    exact .inr (ask.storesInput (stores c s1))
  case h_2 s1 e =>
    rw [e] at ask
    exact .inl (ask.trans (waits s1))

theorem trapGetc_cases (s : State) : Quiet s (trapGetc s) ∨ StoresInput s (trapGetc s) :=
  readThen_cases finishGetc_storesInput (setPhase_quiet .getcWait) s

theorem trapIn_cases (s : State) : Quiet s (trapIn s) ∨ StoresInput s (trapIn s) := by
  have prompt := consoleWriteAll_quiet Config.inPrompt s
  rw [trapIn_eq]
  exact (readThen_cases finishIn_storesInput (setPhase_quiet .inWait) _).imp prompt.trans prompt.storesInput

/-- Everything the service of vector `v` can do (R180, R190): quiet changes only, or GETC or IN stores a code, or the
run ends with the notice. -/
theorem trapService_cases (v : BitVec 8) (s : State) :
    Quiet s (trapService v s) ∨
    ((v = vecGetc ∨ v = vecIn) ∧ StoresInput s (trapService v s)) ∨
    (v ∉ [vecGetc, vecOut, vecPuts, vecIn, vecPutsp] ∧
      trapService v s = (consoleWriteAll Config.haltNotice s).setRun .halted) := by
  unfold trapService
  split_ifs with getc out puts inp putsp
  · exact (trapGetc_cases s).imp_right fun stores => .inl ⟨.inl getc, stores⟩
  · exact .inl (consoleWrite_quiet _ s)
  · exact .inl (putsCell_quiet _ s)
  · exact (trapIn_cases s).imp_right fun stores => .inl ⟨.inr inp, stores⟩
  · exact .inl (putspCell_quiet _ s)
  all_goals exact .inr (.inr ⟨by simp [getc, out, puts, inp, putsp], rfl⟩)

/-- The state a trap service starts from: R7 linked under TRAP_LINKS_R7 (R180). -/
def State.trapLinked (s : State) : State := if s.params.trapLinksR7 then s.setReg linkReg s.pc else s

theorem exec_trap_trapLinked (v : BitVec 8) (s : State) : exec (.trap v) s = .next (trapService v s.trapLinked) := rfl

@[simp] theorem State.trapLinked_pc (s : State) : s.trapLinked.pc = s.pc := by
  unfold State.trapLinked; split <;> rfl

@[simp] theorem State.trapLinked_cond (s : State) : s.trapLinked.cond = s.cond := by
  unfold State.trapLinked; split <;> rfl

@[simp] theorem State.trapLinked_run (s : State) : s.trapLinked.run = s.run := by
  unfold State.trapLinked; split <;> rfl

@[simp] theorem State.trapLinked_phase (s : State) : s.trapLinked.phase = s.phase := by
  unfold State.trapLinked; split <;> rfl

@[simp] theorem State.trapLinked_params (s : State) : s.trapLinked.params = s.params := by
  unfold State.trapLinked; split <;> rfl

@[simp] theorem State.trapLinked_mem (s : State) : s.trapLinked.mem = s.mem := by
  unfold State.trapLinked; split <;> rfl

theorem State.trapLinked_hostForward (s : State) : HostForward s s.trapLinked := by
  unfold State.trapLinked; split <;> exact .of_same rfl rfl rfl rfl rfl

theorem State.trapLinked_reg_other (s : State) {r : Reg} (hr : ¬ (s.params.trapLinksR7 = true ∧ r = linkReg)) :
    s.trapLinked.reg r = s.reg r := by
  unfold State.trapLinked
  split
  case isTrue links => exact s.setReg_reg_other _ fun e => hr ⟨links, e⟩
  case isFalse => rfl

end Sys2Proof.Machine

/-! ## What an instruction and a step can do -/

namespace Sys2Proof.Machine

/-- The shapes of an instruction's effect, from `s` to the next state. -/
inductive Effect : Instr → State → State → Prop
  /-- reads, if any, then a result and its flag (R41) -/
  | result {i d s m} (v : Word) (dst : flagDst i = some d) (reads : Quiet s m) : Effect i s (writeResult d v m)
  /-- reads, if any, then a store (R64) -/
  | store {i s m} (a v : Word) (dst : flagDst i = none) (reads : Quiet s m) : Effect i s (memWrite a v m)
  /-- BR and JMP -/
  | jump {i s} (v : Word) (jumps : (∃ m o, i = .br m o) ∨ ∃ b, i = .jmp b) : Effect i s (s.setPc v)
  /-- JSR and JSRR -/
  | call {i s} (v : Word) (calls : (∃ o, i = .jsr o) ∨ ∃ b, i = .jsrr b) :
      Effect i s ((s.setReg linkReg s.pc).setPc v)
  /-- TRAP -/
  | trap {s} (v : BitVec 8) : Effect (.trap v) s (trapService v s.trapLinked)
  /-- the reserved opcodes (R126) -/
  | illegal {i s} (reserved : i = .illegal8 ∨ i = .illegalD) : Effect i s (s.setRun .illegal)

/-- Every instruction has one of the six shapes. -/
theorem exec_effect {i : Instr} {s t : State} (h : exec i s = .next t) : Effect i s t := by
  cases i with
  | addReg | addImm | andReg | andImm | not | lea => cases h; exact .result _ rfl (.refl s)
  | ld | ldr => cases h; exact .result _ rfl (memRead_quiet _ s)
  | ldi => cases h; exact .result _ rfl ((memRead_quiet _ s).trans (memRead_quiet _ _))
  | st | str => cases h; exact .store _ _ rfl (.refl s)
  | sti => cases h; exact .store _ _ rfl (memRead_quiet _ s)
  | br m o =>
    rw [exec_br] at h
    cases h
    split
    · exact .jump _ (.inl ⟨m, o, rfl⟩)
    · exact .jump s.pc (.inl ⟨m, o, rfl⟩)
  | jmp b => cases h; exact .jump _ (.inr ⟨b, rfl⟩)
  | jsr o => cases h; exact .call _ (.inl ⟨o, rfl⟩)
  | jsrr b => cases h; exact .call _ (.inr ⟨b, rfl⟩)
  | trap v => cases h; exact .trap v
  | illegal8 => cases h; exact .illegal (.inl rfl)
  | illegalD => cases h; exact .illegal (.inr rfl)

theorem Effect.host {i : Instr} {s t : State} (h : Effect i s t) : HostForward s t := by
  cases h with
  | result _ _ reads | store _ _ _ reads => exact reads.host.trans (.of_same rfl rfl rfl rfl rfl)
  | jump | call | illegal => exact .of_same rfl rfl rfl rfl rfl
  | trap v =>
    refine s.trapLinked_hostForward.trans ?_
    obtain quiet | ⟨-, stores⟩ | ⟨-, halts⟩ := trapService_cases v s.trapLinked
    · exact quiet.host
    · exact stores.host
    · rw [halts]
      exact (consoleWriteAll_hostForward _ _).trans (.of_same rfl rfl rfl rfl rfl)

theorem Effect.mem_wf {i : Instr} {s t : State} (h : Effect i s t) (hs : s.mem.wf = true) : t.mem.wf = true := by
  cases h with
  | result _ _ reads => exact reads.mem_wf hs
  | store _ _ _ reads => exact memWrite_wf _ _ (reads.mem_wf hs)
  | jump | call | illegal => exact hs
  | trap v =>
    have linked : s.trapLinked.mem.wf = true := by rwa [s.trapLinked_mem]
    obtain quiet | ⟨-, stores⟩ | ⟨-, halts⟩ := trapService_cases v s.trapLinked
    · exact quiet.mem_wf linked
    · exact stores.mem_wf linked
    · rw [halts]
      exact linked

/-- An instruction ends the run only as a TRAP that halts, its phase kept, or as a reserved opcode, all else kept. -/
theorem Effect.run_cases {i : Instr} {s t : State} (h : Effect i s t) :
    t.run = s.run ∨ (t.run = .halted ∧ t.phase = s.phase) ∨
      ((i = .illegal8 ∨ i = .illegalD) ∧ t = s.setRun .illegal) := by
  cases h with
  | result _ _ reads | store _ _ _ reads => exact .inl reads.run
  | jump | call => exact .inl rfl
  | illegal reserved => exact .inr (.inr ⟨reserved, rfl⟩)
  | trap v =>
    obtain quiet | ⟨-, stores⟩ | ⟨-, halts⟩ := trapService_cases v s.trapLinked
    · exact .inl (quiet.run.trans s.trapLinked_run)
    · exact .inl (stores.run.trans s.trapLinked_run)
    · rw [halts]
      exact .inr (.inl ⟨rfl, s.trapLinked_phase⟩)

/-- A hold of a wait ends by a stop, stays quiet, or stores the code (R183, R208). -/
theorem awaitCode_effect {finish : Word → State → State} (stores : ∀ c s, StoresInput s (finish c s))
    (s : State) :
    awaitCode finish s = interrupt (stopRequested s).2 ∨ Quiet s (awaitCode finish s) ∨
      StoresInput s (awaitCode finish s) := by
  have asks := (stopRequested_quiet s).trans (takeCode_quiet (stopRequested s).2)
  obtain ⟨-, e⟩ | ⟨-, c, -, e⟩ | ⟨-, -, e⟩ := awaitCode_cases finish s
  · exact .inl e
  · exact .inr (.inr (e ▸ asks.storesInput (stores c _)))
  · exact .inr (.inl (e ▸ asks))

/-- Everything a step can do: take a stop, run an instruction, or go on with a service. -/
theorem step_effect {s t : State} (h : step s = .next t) :
    s.run = .running ∧
    (t = interrupt (stopRequested s).2 ∨
     (s.phase = .cycle ∧ exec (decode (fetch (stopRequested s).2).1) (fetch (stopRequested s).2).2 = .next t) ∨
     Quiet s t ∨ StoresInput s t) := by
  obtain ⟨run, ⟨-, -, e⟩ | ⟨phase, -, instr⟩ | ⟨-, rfl⟩ | ⟨-, rfl⟩ | ⟨a, -, rfl⟩ | ⟨a, -, rfl⟩⟩ := step_cases h
  · exact ⟨run, .inl e⟩
  · exact ⟨run, .inr (.inl ⟨phase, instr⟩)⟩
  · exact ⟨run, (awaitCode_effect finishGetc_storesInput s).imp_right .inr⟩
  · exact ⟨run, (awaitCode_effect finishIn_storesInput s).imp_right .inr⟩
  · exact ⟨run, .inr (.inr (.inl (putsCell_quiet a s)))⟩
  · exact ⟨run, .inr (.inr (.inl (putspCell_quiet a s)))⟩

/-- Settles O58, by the four things a step can do. -/
theorem hostSideOnlyMovesForward : Obligations.HostSideOnlyMovesForward := by
  intro s t h
  have host : HostForward s t := by
    have sample := stopRequested_hostForward s
    obtain ⟨-, rfl | ⟨-, instr⟩ | quiet | stores⟩ := step_effect h
    · exact sample.trans (.of_same rfl rfl rfl rfl rfl)
    · exact (sample.trans (fetch_hostForward _)).trans (exec_effect instr).host
    · exact quiet.host
    · exact stores.host
  exact ⟨host.out, host.input, host.ready, host.stop, host.params⟩

end Sys2Proof.Machine

/-! ## What an instruction may write: pc, cond and the registers (R32, R38, R41) -/

namespace Sys2Proof.Machine

/-- BR, JMP, JSR and JSRR (R38). -/
def transfersControl : Instr → Bool
  | .br _ _ => true
  | .jmp _ => true
  | .jsr _ => true
  | .jsrr _ => true
  | _ => false

theorem Effect.pc {i : Instr} {s t : State} (h : Effect i s t) (hi : transfersControl i = false) : t.pc = s.pc := by
  cases h with
  | result _ _ reads | store _ _ _ reads => exact reads.pc
  | jump _ jumps => obtain ⟨m, o, rfl⟩ | ⟨b, rfl⟩ := jumps <;> cases hi
  | call _ calls => obtain ⟨o, rfl⟩ | ⟨b, rfl⟩ := calls <;> cases hi
  | illegal => rfl
  | trap v =>
    obtain quiet | ⟨-, stores⟩ | ⟨-, halts⟩ := trapService_cases v s.trapLinked
    · exact quiet.pc.trans s.trapLinked_pc
    · exact stores.pc.trans s.trapLinked_pc
    · rw [halts]
      exact s.trapLinked_pc

/-- The base JSRR goes to: the new link where it is R7 and the link is written first (R153). -/
theorem jsrr_target (b : Reg) (s : State) :
    (if s.params.jsrrBaseFirst then s.reg b else (s.setReg linkReg s.pc).reg b) =
      if b = 7 ∧ s.params.jsrrBaseFirst = false then s.pc else s.reg b := by
  cases s.params.jsrrBaseFirst <;> simp [State.setReg_reg, linkReg]

/-- Settles O54: the four transfers by their equations, the rest by the shape of their effect. -/
theorem onlyControlTransfersWritePc : Obligations.OnlyControlTransfersWritePc := by
  intro i s t h
  cases i with
  | br m o =>
    rw [exec_br] at h
    cases h
    exact apply_ite State.pc _ _ _
  | jmp b => cases h; rfl
  | jsr o => cases h; rfl
  | jsrr b => cases h; exact jsrr_target b s
  | _ => exact (exec_effect h).pc rfl

/-- Settles O55, by the shape of the effect: a result sets its flag, and of the others only GETC and IN can. -/
theorem onlyFlagInstructionsWriteCond : Obligations.OnlyFlagInstructionsWriteCond := by
  intro i s t h
  cases exec_effect h with
  | result v dst reads =>
    rw [dst]
    simpa using flagOf_condOf v
  | store _ _ dst reads =>
    rw [dst]
    exact .inl reads.cond
  | jump _ jumps => obtain ⟨m, o, rfl⟩ | ⟨b, rfl⟩ := jumps <;> exact .inl rfl
  | call _ calls => obtain ⟨o, rfl⟩ | ⟨b, rfl⟩ := calls <;> exact .inl rfl
  | illegal reserved => obtain rfl | rfl := reserved <;> exact .inl rfl
  | trap v =>
    show _ ∨ _
    obtain quiet | ⟨vector, stores⟩ | ⟨-, halts⟩ := trapService_cases v s.trapLinked
    · exact .inl (quiet.cond.trans s.trapLinked_cond)
    · refine stores.cond.imp (·.trans s.trapLinked_cond) ?_
      rintro ⟨flags, flag⟩
      exact ⟨s.trapLinked_params ▸ flags, vector.imp (congrArg Instr.trap) (congrArg Instr.trap), flag⟩
    · rw [halts]
      exact .inl s.trapLinked_cond

/-- An instruction with a destination may write that register only. -/
theorem mayWriteReg_of_flagDst {i : Instr} {d : Reg} (h : flagDst i = some d) (p : Params) :
    mayWriteReg p d i = true := by
  cases i <;> cases h <;> exact decide_eq_true rfl

/-- The two clauses of R32 about TRAP. -/
theorem mayWriteReg_trap_eq_false {p : Params} {r : Reg} {v : BitVec 8} (h : mayWriteReg p r (.trap v) = false) :
    (v = vecGetc ∨ v = vecIn → r ≠ trapReg) ∧ ¬ (p.trapLinksR7 = true ∧ r = linkReg) := by
  obtain ⟨input, link⟩ := Bool.or_eq_false_iff.mp h
  exact ⟨fun hv hr => of_decide_eq_false input ⟨hr, hv⟩, fun ⟨hp, hr⟩ => by simp [hp, hr, linkReg] at link⟩

/-- Settles O56, by the shape of the effect. -/
theorem onlyListedRegistersChange : Obligations.OnlyListedRegistersChange := by
  intro i s t r h unlisted
  cases exec_effect h with
  | @result _ d _ _ v dst reads =>
    have other : r ≠ d := by
      rintro rfl
      exact absurd (mayWriteReg_of_flagDst dst s.params) (by simp [unlisted])
    rw [writeResult_eq, State.setCond_reg, State.setReg_reg_other _ v other, reads.reg]
  | store _ _ _ reads => exact reads.reg r
  | jump | illegal => rfl
  | call _ calls =>
    have other : r ≠ linkReg := by
      obtain ⟨o, rfl⟩ | ⟨b, rfl⟩ := calls <;> exact of_decide_eq_false unlisted
    exact s.setReg_reg_other _ other
  | trap v =>
    obtain ⟨noInput, noLink⟩ := mayWriteReg_trap_eq_false unlisted
    rw [← s.trapLinked_reg_other noLink]
    obtain quiet | ⟨vector, stores⟩ | ⟨-, halts⟩ := trapService_cases v s.trapLinked
    · exact quiet.reg r
    · exact stores.reg_other (noInput vector)
    · rw [halts]
      rfl

end Sys2Proof.Machine

/-! ## Every step keeps the invariant (R39, R126, R200) -/

namespace Sys2Proof.Machine

/-- The decoder keeps the opcode it finds in bits 15:12 (R91, R95). -/
theorem decode_opcode (w : Word) : (decode w).opcode = opcodeOf w := by
  unfold decode
  cases opcodeOf w with
  | add | jsr | and => dsimp only; split <;> rfl
  | _ => rfl

/-- Only words with a reserved opcode decode to the illegal instructions (R101). -/
theorem reservedWord_of_decode {w : Word} (h : decode w = .illegal8 ∨ decode w = .illegalD) : ReservedWord w := by
  have number : w.extractLsb' 12 4 = (decode w).opcode.number := by
    rw [decode_opcode, opcodeOf, Opcode.number_ofBits]
  exact h.imp (fun e => by rw [number, e]; rfl) (fun e => by rw [number, e]; rfl)

theorem Quiet.inv {s t : State} (h : Quiet s t) (run : s.run = .running) (hs : s.Inv) : t.Inv :=
  .of_running (h.run.trans run) (h.mem_wf hs.mem_wf) (h.cond ▸ hs.cond_oneHot)

theorem StoresInput.inv {s t : State} (h : StoresInput s t) (run : s.run = .running) (hs : s.Inv) : t.Inv := by
  refine .of_running (h.run.trans run) (h.mem_wf hs.mem_wf) ?_
  obtain same | ⟨-, flag⟩ := h.cond
  · exact same ▸ hs.cond_oneHot
  · exact flag.oneHot

/-- A stop taken at a cycle boundary or in a wait leaves no service under way (R207, R208). -/
theorem interrupt_inv {s : State} (hs : s.Inv) : (interrupt s).Inv where
  mem_wf := hs.mem_wf
  cond_oneHot := hs.cond_oneHot
  final_cycle := fun _ => rfl
  illegal_word := nofun

theorem fetch_inv {s : State} (run : s.run = .running) (hs : s.Inv) : (fetch s).2.Inv := by
  have read := (memRead_quiet s.pc s).inv run hs
  exact .of_running ((memRead_run s.pc s).trans run) read.mem_wf read.cond_oneHot

/-- After a fetch the cell at `pc - 1` holds the word that was fetched, at KBSR too (R122, R200). -/
theorem fetch_cell_pc_sub_one (s : State) : (fetch s).2.cell ((fetch s).2.pc - 1) = (fetch s).1 := by
  rw [fetch_eq, State.setPc_pc, State.setPc_cell, BitVec.add_sub_cancel, memRead_fst]

/-- One flag stays set, for any write of `cond` is the flag of some value (R39, R41). -/
theorem exec_cond_oneHot {i : Instr} {s t : State} (h : exec i s = .next t) (hs : OneHot s.cond) : OneHot t.cond := by
  have writes := onlyFlagInstructionsWriteCond i s t h
  split at writes
  · exact writes.oneHot
  · obtain same | ⟨-, -, flag⟩ := writes
    · exact same ▸ hs
    · exact flag.oneHot

/-- An instruction run in a cycle keeps the invariant, given that an illegal one stands at `pc - 1`. -/
theorem exec_inv {i : Instr} {s t : State} (h : exec i s = .next t) (run : s.run = .running) (phase : s.phase = .cycle)
    (word : i = .illegal8 ∨ i = .illegalD → ReservedWord (s.cell (s.pc - 1))) (hs : s.Inv) : t.Inv := by
  have mem := (exec_effect h).mem_wf hs.mem_wf
  have cond := exec_cond_oneHot h hs.cond_oneHot
  obtain same | ⟨halted, samePhase⟩ | ⟨reserved, rfl⟩ := (exec_effect h).run_cases
  · exact .of_running (same.trans run) mem cond
  · exact ⟨mem, cond, fun _ => samePhase.trans phase, fun illegal => nomatch halted.symm.trans illegal⟩
  · exact ⟨mem, cond, fun _ => phase, fun _ => word reserved⟩

theorem stopRequested_phase (s : State) : (stopRequested s).2.phase = s.phase := by rw [stopRequested_eq]

theorem fetch_phase (s : State) : (fetch s).2.phase = s.phase := memRead_phase s.pc s

theorem fetch_run (s : State) : (fetch s).2.run = s.run := memRead_run s.pc s

/-- Settles O53, by the four things a step can do; the illegal word is the one just fetched. -/
theorem everyStepKeepsTheInvariant : Obligations.EveryStepKeepsTheInvariant := by
  intro s t hs h
  obtain ⟨run, effect⟩ := step_effect h
  have sampled : (stopRequested s).2.Inv := (stopRequested_quiet s).inv run hs
  have sampledRun : (stopRequested s).2.run = .running := (stopRequested_quiet s).run.trans run
  obtain rfl | ⟨phase, instr⟩ | quiet | stores := effect
  · exact interrupt_inv sampled
  · have fetchedRun := (fetch_run _).trans sampledRun
    have fetchedPhase := ((fetch_phase _).trans (stopRequested_phase s)).trans phase
    refine exec_inv instr fetchedRun fetchedPhase ?_ (fetch_inv sampledRun sampled)
    rw [fetch_cell_pc_sub_one]
    exact reservedWord_of_decode
  · exact quiet.inv run hs
  · exact stores.inv run hs

end Sys2Proof.Machine

/-! ## Only BR reads cond (R43) -/

namespace Sys2Proof.Machine

theorem takeCode_setCond (s : State) (c : BitVec 3) :
    takeCode (s.setCond c) = ((takeCode s).1, (takeCode s).2.setCond c) := by
  unfold takeCode
  rw [State.setCond_offered]
  cases s.offered <;> rfl

theorem keyboardPoll_setCond (s : State) (c : BitVec 3) : keyboardPoll (s.setCond c) = (keyboardPoll s).setCond c := by
  unfold keyboardPoll
  rw [consolePoll_eq, consolePoll_eq, takeCode_setCond]
  obtain ⟨_ | w, s1⟩ := takeCode s <;> rfl

theorem memRead_setCond (a : Word) (s : State) (c : BitVec 3) :
    memRead a (s.setCond c) = ((memRead a s).1, (memRead a s).2.setCond c) := by
  by_cases ha : a = kbsrAddr
  · subst ha
    rw [memRead_kbsr, memRead_kbsr, keyboardPoll_setCond, State.setCond_cell]
  · rw [memRead_pure _ ha, memRead_pure _ ha, State.setCond_cell]

theorem loadInto_setCond (d : Reg) (a : Word) (s : State) (c : BitVec 3) :
    loadInto d a (s.setCond c) = loadInto d a s := by
  rw [loadInto_eq, memRead_setCond]
  rfl

theorem putsCell_setCond (a : Word) (s : State) (c : BitVec 3) :
    putsCell a (s.setCond c) = (putsCell a s).setCond c := by
  rw [putsCell_eq, putsCell_eq, memRead_setCond]
  dsimp only
  split <;> rfl

theorem putspCell_setCond (a : Word) (s : State) (c : BitVec 3) :
    putspCell a (s.setCond c) = (putspCell a s).setCond c := by
  rw [putspCell_eq, putspCell_eq, memRead_setCond]
  dsimp only
  split
  · rfl
  · split <;> rfl

/-- From `s`, `f` does the same whatever `cond` holds: it overwrites `cond`, or passes it on. -/
def BlindToCond (f : State → State) (s : State) : Prop :=
  (∀ c, f (s.setCond c) = f s) ∨ (∀ c, f (s.setCond c) = (f s).setCond c)

theorem BlindToCond.comp {f g : State → State} {s : State} (hf : BlindToCond f s) (hg : BlindToCond g (f s)) :
    BlindToCond (fun s => g (f s)) s := by
  obtain overwrites | passes := hf
  · exact .inl fun c => congrArg g (overwrites c)
  · exact hg.imp (fun e c => (congrArg g (passes c)).trans (e c)) (fun e c => (congrArg g (passes c)).trans (e c))

/-- Blindness at `s` looks at states that are `s` but for `cond` only. -/
theorem BlindToCond.congr {f g : State → State} {s : State} (hg : BlindToCond g s)
    (same : ∀ c, f (s.setCond c) = g (s.setCond c)) : BlindToCond f s := by
  have here : f s = g s := same s.cond
  exact hg.imp (fun e c => by rw [same, e, here]) (fun e c => by rw [same, e, here])

theorem storeInput_blind (w : Word) (s : State) : BlindToCond (storeInput w) s := by
  cases flags : s.params.trapInputSetsFlags
  case false => exact .inr fun c => by simp only [storeInput_eq, State.setCond_params, flags]; rfl
  case true => exact .inl fun c => by simp only [storeInput_eq, State.setCond_params, flags]; rfl

theorem finishGetc_blind (w : Word) (s : State) : BlindToCond (finishGetc w) s :=
  BlindToCond.comp (g := (·.setPhase .cycle)) (storeInput_blind w s) (.inr fun _ => rfl)

theorem finishIn_blind (w : Word) (s : State) : BlindToCond (finishIn w) s := by
  have stored : BlindToCond (fun s => (storeInput w (consoleWrite (loByte w) s)).setPhase .cycle) s :=
    finishGetc_blind w (consoleWrite (loByte w) s)
  cases through : s.params.inFallthrough
  case false => exact stored.congr fun c => finishIn_eq w (s.setCond c) through
  case true =>
    have printed := stored.comp (.inr (putspCell_setCond w _))
    exact printed.congr fun c => finishIn_fallthrough w (s.setCond c) through

theorem readThen_blind {finish : Word → State → State} {wait : State → State}
    (finishes : ∀ w s, BlindToCond (finish w) s) (waits : ∀ s, BlindToCond wait s) (s : State) :
    BlindToCond (readThen finish wait) s := by
  unfold BlindToCond readThen
  simp only [takeCode_setCond]
  obtain ⟨_ | w, s1⟩ := takeCode s
  · exact waits s1
  · exact finishes w s1

theorem trapService_blind (v : BitVec 8) (s : State) : BlindToCond (trapService v) s := by
  unfold BlindToCond trapService
  split_ifs
  · exact readThen_blind finishGetc_blind (fun _ => .inr fun _ => rfl) s
  · exact .inr fun _ => rfl
  · exact .inr fun c => putsCell_setCond _ s c
  · exact readThen_blind finishIn_blind (fun _ => .inr fun _ => rfl) (consoleWriteAll Config.inPrompt s)
  · exact .inr fun c => putspCell_setCond _ s c
  all_goals exact .inr fun _ => rfl

theorem State.trapLinked_setCond (s : State) (c : BitVec 3) : (s.setCond c).trapLinked = s.trapLinked.setCond c := by
  unfold State.trapLinked
  rw [State.setCond_params]
  split <;> rfl

/-- Any instruction but BR overwrites `cond` or passes it on. -/
theorem exec_setCond {i : Instr} {s t : State} (notBr : ∀ m o, i ≠ .br m o) (h : exec i s = .next t) :
    (∀ c, exec i (s.setCond c) = .next t) ∨ (∀ c, exec i (s.setCond c) = .next (t.setCond c)) := by
  cases i with
  | br m o => exact absurd rfl (notBr m o)
  | addReg | addImm | andReg | andImm | not | lea => cases h; exact .inl fun _ => rfl
  | ld | ldr => cases h; exact .inl fun c => congrArg Host.Outcome.next (loadInto_setCond _ _ s c)
  | ldi d o =>
    cases h
    exact .inl fun c => by rw [exec_ldi, State.setCond_pc, memRead_setCond, loadInto_setCond]; rfl
  | jmp | jsr | jsrr | st | str | illegal8 | illegalD => cases h; exact .inr fun _ => rfl
  | sti r o =>
    rw [exec_sti] at h
    cases h
    exact .inr fun c => by rw [exec_sti, State.setCond_pc, memRead_setCond]; rfl
  | trap v =>
    cases h
    have blind : BlindToCond (fun s => trapService v s.trapLinked) s :=
      BlindToCond.comp (.inr s.trapLinked_setCond) (trapService_blind v s.trapLinked)
    exact blind.imp (fun e c => congrArg Host.Outcome.next (e c)) (fun e c => congrArg Host.Outcome.next (e c))

/-- Settles O57: an instruction that passes any `cond` on passes on the one that was there. -/
theorem onlyBranchReadsCond : Obligations.OnlyBranchReadsCond := by
  intro i s t c notBr h
  obtain overwrites | passes := exec_setCond notBr h
  · exact .inl (overwrites c)
  · have own : t = t.setCond s.cond := Host.Outcome.next.inj (h.symm.trans (passes s.cond))
    have cond : t.cond = (t.setCond s.cond).cond := congrArg State.cond own
    exact .inr ⟨cond, passes c⟩

end Sys2Proof.Machine

/-! ## The keyboard and reads of memory (R63 to R69) -/

namespace Sys2Proof.Machine

/-- A poll that finds a code leaves it in KBDR and KBSR ready (R66). -/
theorem keyboardPoll_some {s : State} {c : Code} (h : s.offered = some c) :
    keyboardPoll s =
      memWrite kbdrAddr c.word (memWrite kbsrAddr kbsrReady { s with ready := s.ready.tail, input := s.input.tail }) := by
  rw [keyboardPoll, consolePoll_eq, takeCode_some h]

/-- A poll that finds no code leaves KBSR zero (R66). -/
theorem keyboardPoll_none {s : State} (h : s.offered = none) :
    keyboardPoll s = memWrite kbsrAddr 0 { s with ready := s.ready.tail } := by
  rw [keyboardPoll, consolePoll_eq, takeCode_none h]

/-- KBSR and KBDR are two cells (R10). -/
theorem kbsrAddr_ne_kbdrAddr : kbsrAddr ≠ kbdrAddr := by decide

/-- What a poll that finds a code does to the input and the cells (R66). -/
theorem keyboardPoll_delivers {s : State} {c : Code} (h : s.offered = some c) :
    HostDelivers s c.word (keyboardPoll s) ∧ (keyboardPoll s).cell kbsrAddr = kbsrReady ∧
      (keyboardPoll s).cell kbdrAddr = c.word ∧
      ∀ b, b ≠ kbsrAddr → b ≠ kbdrAddr → (keyboardPoll s).cell b = s.cell b := by
  rw [keyboardPoll_some h]
  refine ⟨⟨c, h, rfl, rfl, rfl⟩, ?_, memWrite_cell_same _ _ _, fun b notKbsr notKbdr => ?_⟩
  · rw [memWrite_cell_other _ _ _ kbsrAddr_ne_kbdrAddr, memWrite_cell_same]
  · rw [memWrite_cell_other _ _ _ notKbdr, memWrite_cell_other _ _ _ notKbsr]
    rfl

/-- What a poll that finds no code does to the input and the cells (R66). -/
theorem keyboardPoll_declines {s : State} (h : s.offered = none) :
    HostDeclines s (keyboardPoll s) ∧ (keyboardPoll s).cell kbsrAddr = 0 ∧ CellsBut kbsrAddr s (keyboardPoll s) := by
  rw [keyboardPoll_none h]
  exact ⟨⟨h, rfl, rfl⟩, memWrite_cell_same _ _ _, fun _ other => memWrite_cell_other _ _ _ other⟩

/-- A read at KBSR answers 0x8000 or 0, and so never a word with a low byte (R66, D9). -/
theorem loByte_memRead_kbsr (s : State) : loByte (memRead kbsrAddr s).1 = 0 := by
  have polled : (memRead kbsrAddr s).1 = (keyboardPoll s).cell kbsrAddr := by rw [memRead_kbsr]
  rw [polled]
  cases h : s.offered with
  | some c =>
    obtain ⟨-, ready, -⟩ := keyboardPoll_delivers h
    rw [ready]
    decide
  | none =>
    obtain ⟨-, notReady, -⟩ := keyboardPoll_declines h
    rw [notReady]
    decide

/-- Settles O8: KBSR by the two outcomes of its poll, any other address by purity. -/
theorem memReadPollsOnlyAtKbsr : Obligations.MemReadPollsOnlyAtKbsr := by
  intro a s
  refine ⟨memRead_fst a s, memRead_reg a s, memRead_pc a s, memRead_cond a s,
    ⟨memRead_run a s, memRead_phase a s, memRead_params a s⟩, memRead_out a s,
    ⟨memRead_stop a s, memRead_stops a s⟩, fun plain => ?_, fun kbsr => ?_⟩
  · rw [memRead_pure s plain]
    exact ⟨fun _ => rfl, rfl, rfl⟩
  · subst kbsr
    rw [memRead_kbsr]
    cases h : s.offered with
    | some c => exact .inl ⟨c.word, keyboardPoll_delivers h⟩
    | none => exact .inr (keyboardPoll_declines h)

/-- Settles O9: each of the three reads leaves the state it was made in. -/
theorem otherReadsArePure : Obligations.OtherReadsArePure := by
  intro a b s notKbsr notKbsr'
  have readA : memRead a s = (s.cell a, s) := memRead_pure s notKbsr
  have readB : memRead b s = (s.cell b, s) := memRead_pure s notKbsr'
  refine ⟨readA, ?_⟩
  rw [readA, readB, readA]

/-- Settles O10: a write of memory updates `mem` alone, and in it one cell. -/
theorem memWriteIsAPlainStore : Obligations.MemWriteIsAPlainStore := fun a v s =>
  ⟨memWrite_cell_same a v s, fun _ other => memWrite_cell_other a v s other, fun _ => rfl, rfl, rfl,
    ⟨rfl, ⟨rfl, rfl⟩, rfl, rfl⟩, rfl, rfl, rfl⟩

/-- Settles O11: the first poll takes the last code, so the host has none to offer at the second. -/
theorem secondPollFindsNothing : Obligations.SecondPollFindsNothing := by
  intro s c offered last
  obtain ⟨⟨_, -, -, input, -⟩, ready, data, -⟩ := keyboardPoll_delivers offered
  have nothing : (keyboardPoll s).offered = none := by rw [State.offered, input, last, ite_self]
  obtain ⟨-, notReady, kept⟩ := keyboardPoll_declines nothing
  simp only [memRead_kbsr]
  exact ⟨ready, data, notReady, (kept kbdrAddr kbsrAddr_ne_kbdrAddr.symm).trans data⟩

end Sys2Proof.Machine

/-! ## Loading (R80) -/

namespace Sys2Proof.Machine

/-- Settles O13, by induction on the images: each later one is searched before it falls back on those before. -/
theorem lastLoadedImageWins : Obligations.LastLoadedImageWins := by
  intro is m a ha
  induction is generalizing m with
  | nil => rfl
  | cons i is ih =>
    have last : (i :: is).reverse.findSome? (·.wordAt a) = (is.reverse.findSome? (·.wordAt a)).or (i.wordAt a) := by
      simp [List.findSome?_append]
    rw [loadImages, ih, storeWords_image_read i m ha, last, Option.getD_or]

end Sys2Proof.Machine

/-! ## PUTSP ends (R66, R188) -/

namespace Sys2Proof.Machine

theorem step_putsp {s : State} {a : Word} (run : s.run = .running) (phase : s.phase = .putsp a) :
    step s = .next (putspCell a s) := by
  simp only [step, run, phase]

/-- One cell ends PUTSP or leads to the next, and KBSR's cell ends it, for its low byte is zero (R188). -/
theorem putspCell_phase (a : Word) (s : State) :
    (putspCell a s).phase = .cycle ∨ (a ≠ kbsrAddr ∧ (putspCell a s).phase = .putsp (a + 1)) := by
  rw [putspCell_eq]
  split
  · exact .inl rfl
  next low =>
    split
    · exact .inl rfl
    · refine .inr ⟨?_, rfl⟩
      rintro rfl
      exact low (loByte_memRead_kbsr s)

/-- The next cell is one nearer to KBSR, unless this is it. -/
theorem kbsr_distance_succ {a : Word} (h : a ≠ kbsrAddr) : (kbsrAddr - (a + 1)).toNat + 1 = (kbsrAddr - a).toNat := by
  unfold kbsrAddr at *
  bv_omega

/-- By induction on the cells left up to KBSR, PUTSP reads at most these and KBSR. -/
theorem putsp_ends {s : State} {a : Word} (run : s.run = .running) (phase : s.phase = .putsp a) :
    ∃ k, k ≤ (kbsrAddr - a).toNat + 1 ∧ ∃ t, core.run k s = .next t ∧ Quiet s t ∧ t.phase = .cycle := by
  induction distance : (kbsrAddr - a).toNat using Nat.strong_induction_on generalizing s a with
  | _ n ih =>
    have read : step s = .next (putspCell a s) := step_putsp run phase
    have quiet : Quiet s (putspCell a s) := putspCell_quiet a s
    obtain ended | ⟨notKbsr, goesOn⟩ := putspCell_phase a s
    · exact ⟨1, by omega, _, core_run_succ 0 read, quiet, ended⟩
    · have nearer := kbsr_distance_succ notKbsr
      obtain ⟨k, bound, t, ran, later, ended⟩ := ih _ (by omega) (quiet.run.trans run) goesOn rfl
      exact ⟨k + 1, by omega, t, (core_run_succ k read).trans ran, quiet.trans later, ended⟩

/-- Settles O42: from any address KBSR is at most 65535 cells ahead. -/
theorem putspEndsWithinTheAddressSpace : Obligations.PutspEndsWithinTheAddressSpace := by
  intro s a run phase
  obtain ⟨k, bound, t, ran, quiet, ended⟩ := putsp_ends run phase
  have near : (kbsrAddr - a).toNat < 65536 := (kbsrAddr - a).isLt
  exact ⟨k, by omega, t, ran, quiet.run.trans run, ended, quiet.reg, quiet.pc⟩

end Sys2Proof.Machine

/-! ## Self-modifying code (R81, R241) -/

namespace Sys2Proof.Machine

/-- A cycle with no stop requested runs the word in the cell at pc, wherever the fetch does not poll (R120). -/
theorem step_cycle_plain {s : State} (run : s.run = .running) (phase : s.phase = .cycle) (stop : s.stop = false)
    (stops : s.stops = []) (plain : s.pc ≠ kbsrAddr) :
    step s = exec (decode (s.cell s.pc)) (s.setPc (s.pc + 1)) := by
  have noStop : stopRequested s = (false, s) := by simp only [stopRequested, stops, stop]
  have fetched : fetch s = (s.cell s.pc, s.setPc (s.pc + 1)) := by rw [fetch_eq, memRead_pure s plain]
  simp only [step, run, phase, noStop, fetched]

/-- Settles O60: both cycles run the word in the cell at pc, and the first has stored the second's. -/
theorem storeIsSeenByTheNextFetch : Obligations.StoreIsSeenByTheNextFetch := by
  intro s r run phase stop stops plain plainNext instr
  let t := memWrite (s.pc + 1) (s.reg r) (s.setPc (s.pc + 1))
  have stored : step s = .next t := by
    have target : s.pc + 1 + sext (0 : BitVec 9) = s.pc + 1 := BitVec.add_zero _
    rw [step_cycle_plain run phase stop stops plain, instr, exec_st, State.setPc_pc, target, State.setPc_reg]
  have pc : t.pc = s.pc + 1 := rfl
  have cell : t.cell (s.pc + 1) = s.reg r := memWrite_cell_same _ _ _
  have next : s.pc + 1 + 1 = s.pc + 2 := BitVec.add_assoc _ _ _
  refine ⟨t, stored, pc, cell, ?_⟩
  rw [step_cycle_plain (s := t) run phase stop stops plainNext, pc, cell, next]

end Sys2Proof.Machine

/-! ## The opcode field and the illegal words (R91, R95, R101) -/

namespace Sys2Proof.Machine

theorem opcodeOf_eq_iff {w : Word} {o : Opcode} : opcodeOf w = o ↔ w.extractLsb' 12 4 = o.number := by
  rw [← Opcode.number_injective.eq_iff, opcodeOf, Opcode.number_ofBits]

/-- The words of one opcode are a range of 4096. -/
theorem opcodeOf_eq_iff_range {w : Word} {o : Opcode} :
    opcodeOf w = o ↔ 4096 * o.number.toNat ≤ w.toNat ∧ w.toNat ≤ 4096 * o.number.toNat + 4095 := by
  have small : w.toNat < 65536 := w.isLt
  rw [opcodeOf_eq_iff, ← BitVec.toNat_inj, BitVec.extractLsb'_toNat, Nat.shiftRight_eq_div_pow]
  omega

theorem decode_eq_illegal8_iff {w : Word} : decode w = .illegal8 ↔ opcodeOf w = .reserved8 where
  mp h := by rw [← decode_opcode, h]; rfl
  mpr h := by simp only [decode, h]

theorem decode_eq_illegalD_iff {w : Word} : decode w = .illegalD ↔ opcodeOf w = .reservedD where
  mp h := by rw [← decode_opcode, h]; rfl
  mpr h := by simp only [decode, h]

/-- Settles O4: the illegal words are those of the two reserved opcodes. -/
theorem illegalWordsAreTwoRanges : Obligations.IllegalWordsAreTwoRanges := fun _ =>
  ⟨decode_eq_illegal8_iff.trans opcodeOf_eq_iff_range, decode_eq_illegalD_iff.trans opcodeOf_eq_iff_range⟩

end Sys2Proof.Machine

/-! ## The decoder reads back what the encoder writes (R92, R94) -/

namespace Sys2Proof.Machine

/-- A field below the opcode is one of the operand bits. -/
theorem encode_field (i : Instr) {lo len : Nat} (h : lo + len ≤ 12) :
    (encode i).extractLsb' lo len = i.operandBits.extractLsb' lo len :=
  BitVec.extractLsb'_append_eq_of_add_le h

theorem regField_encode (i : Instr) {lo : Nat} (h : lo + 3 ≤ 12) :
    regField lo (encode i) = (i.operandBits.extractLsb' lo 3).toFin :=
  congrArg BitVec.toFin (encode_field i h)

theorem modeBit_encode (i : Instr) {k : Nat} (h : k + 1 ≤ 12) :
    (encode i).getLsbD k = (i.operandBits.extractLsb' k 1 == 1#1) := by
  rw [BitVec.getLsbD_eq_extractLsb', encode_field i h]

/-- Settles O1, row by row: the opcode is read back, so is the mode bit, and each field is the part of the operand bits
that stands between those above it and those below it. -/
theorem decodeInvertsEncode : Obligations.DecodeInvertsEncode := by
  intro i _
  cases i <;>
    simp (disch := decide) only [decode, encode_opcode, Instr.opcode, encode_field, regField_encode, modeBit_encode,
      Instr.operandBits, BitVec.extractLsb'_append_eq_of_add_le, BitVec.extractLsb'_append_eq_of_le, Nat.reduceSub,
      BitVec.extractLsb'_eq_self, regBits_toFin, BEq.rfl, Bool.false_eq_true, BitVec.reduceBEq, if_true, if_false]

end Sys2Proof.Machine

/-! ## Ignored bits (R93) -/

namespace Sys2Proof.Machine

/-- Flipping bits outside a field keeps the field. -/
theorem extractLsb'_flip {m : Word} {lo len : Nat} (w x : Word) (outside : m.extractLsb' lo len = 0#len) :
    (w ^^^ (x &&& m)).extractLsb' lo len = w.extractLsb' lo len := by
  rw [BitVec.extractLsb'_xor, BitVec.extractLsb'_and, outside, BitVec.and_zero, BitVec.xor_zero]

theorem opcodeOf_flip {m : Word} (w x : Word) (outside : m.extractLsb' 12 4 = 0#4) :
    opcodeOf (w ^^^ (x &&& m)) = opcodeOf w :=
  congrArg Opcode.ofBits (extractLsb'_flip w x outside)

theorem regField_flip {m : Word} {lo : Nat} (w x : Word) (outside : m.extractLsb' lo 3 = 0#3) :
    regField lo (w ^^^ (x &&& m)) = regField lo w :=
  congrArg BitVec.toFin (extractLsb'_flip w x outside)

theorem getLsbD_flip {m : Word} {k : Nat} (w x : Word) (outside : m.extractLsb' k 1 = 0#1) :
    (w ^^^ (x &&& m)).getLsbD k = w.getLsbD k := by
  rw [BitVec.getLsbD_eq_extractLsb', extractLsb'_flip w x outside, ← BitVec.getLsbD_eq_extractLsb']

/-- Settles O3: a row's ignored bits lie outside its opcode, its mode bit and its fields. -/
theorem ignoredBitsDoNotMatter : Obligations.IgnoredBitsDoNotMatter := by
  intro w x
  refine ⟨fun op mode => ?opr, fun op => ?not, fun op => ?jmp, fun op mode => ?jsrr, fun op => ?trap,
    fun op => ?reserved⟩
  case opr =>
    obtain op | op : opcodeOf w = .add ∨ opcodeOf w = .and := op.imp opcodeOf_eq_iff.mpr opcodeOf_eq_iff.mpr
    all_goals simp (disch := decide) only [decode, opcodeOf_flip, getLsbD_flip, regField_flip, op, mode,
      Bool.false_eq_true, if_false]
  case not =>
    have op : opcodeOf w = .not := opcodeOf_eq_iff.mpr op
    simp (disch := decide) only [decode, opcodeOf_flip, regField_flip, op]
  case jmp =>
    have op : opcodeOf w = .jmp := opcodeOf_eq_iff.mpr op
    simp (disch := decide) only [decode, opcodeOf_flip, regField_flip, op]
  case jsrr =>
    have op : opcodeOf w = .jsr := opcodeOf_eq_iff.mpr op
    simp (disch := decide) only [decode, opcodeOf_flip, getLsbD_flip, regField_flip, op, mode, Bool.false_eq_true,
      if_false]
  case trap =>
    have op : opcodeOf w = .trap := opcodeOf_eq_iff.mpr op
    simp (disch := decide) only [decode, opcodeOf_flip, extractLsb'_flip, op]
  case reserved =>
    obtain op | op : opcodeOf w = .reserved8 ∨ opcodeOf w = .reservedD :=
      op.imp opcodeOf_eq_iff.mpr opcodeOf_eq_iff.mpr
    all_goals simp (disch := decide) only [decode, opcodeOf_flip, op]

end Sys2Proof.Machine

/-! ## Named bits (R92, R93)

The operand bits of an instruction are a chain of appended fields. Of a decoded word each field keeps the bits that
stood in its place, as far as the format names them, and so does the chain. -/

namespace Sys2Proof.Machine

/-- Where `care` has ones, `x` holds the bits of `w` from `lo` upward. -/
def KeepsField {n : Nat} (w : Word) (lo : Nat) (care x : BitVec n) : Prop :=
  x &&& care = w.extractLsb' lo n &&& care

namespace KeepsField

theorem append {w : Word} {lo m n : Nat} {c x : BitVec m} {d y : BitVec n} (high : KeepsField w (lo + n) c x)
    (low : KeepsField w lo d y) : KeepsField w lo (c ++ d) (x ++ y) := by
  unfold KeepsField at *
  rw [← BitVec.extractLsb'_append_extractLsb'_eq_extractLsb' rfl, BitVec.and_append, BitVec.and_append, high, low]

/-- A field read from its own place in the word. -/
theorem named {n : Nat} {w : Word} {lo : Nat} {c : BitVec n} : KeepsField w lo c (w.extractLsb' lo n) := rfl

/-- Where the format names nothing, any spelling will do. -/
theorem ignored {n : Nat} {w : Word} {lo : Nat} {x : BitVec n} : KeepsField w lo 0#n x := by
  rw [KeepsField, BitVec.and_zero, BitVec.and_zero]

/-- The mode bit the decoder tested. -/
theorem mode {w : Word} {k : Nat} {b : Bool} (h : w.getLsbD k = b) : KeepsField w k 1#1 (BitVec.ofBool b) := by
  have bit : w.extractLsb' k 1 = BitVec.ofBool b := by
    ext i hi
    obtain rfl : i = 0 := by omega
    rw [BitVec.getElem_extractLsb', BitVec.getElem_ofBool, Nat.add_zero, h]
  exact bit ▸ named

end KeepsField

/-- The mask of a format has ones over the whole opcode, so only the operand bits are in question. -/
theorem encode_and_careMask {i : Instr} {w : Word} (op : opcodeOf w = i.opcode) (care : BitVec 12)
    (mask : i.careMask = 0b1111#4 ++ care) (operands : KeepsField w 0 care i.operandBits) :
    encode i &&& i.careMask = w &&& i.careMask := by
  have opcode : KeepsField w 12 0b1111#4 i.opcode.number := opcodeOf_eq_iff.mp op ▸ .named
  rw [mask]
  exact (opcode.append operands).trans (congrArg (· &&& _) BitVec.extractLsb'_eq_self)

/-- Settles O2, format by format: each row gives its fields from the highest down, under the mask that R93 leaves. -/
theorem encodeKeepsEveryNamedBit : Obligations.EncodeKeepsEveryNamedBit := by
  intro w
  cases op : opcodeOf w with
  | br | ld | ldi | lea | st | sti =>
    simp only [decode, op]
    exact encode_and_careMask op (7#3 ++ 511#9) rfl (.append .named .named)
  | ldr | str =>
    simp only [decode, op]
    exact encode_and_careMask op (7#3 ++ 7#3 ++ 63#6) rfl (.append (.append .named .named) .named)
  | add | and =>
    simp only [decode, op]
    split
    case isTrue immediate =>
      have mode := KeepsField.mode immediate
      exact encode_and_careMask op (7#3 ++ 7#3 ++ 1#1 ++ 31#5) rfl
        (.append (.append (.append .named .named) mode) .named)
    case isFalse register =>
      have mode := KeepsField.mode (Bool.eq_false_of_not_eq_true register)
      exact encode_and_careMask op (7#3 ++ 7#3 ++ 1#1 ++ 0#2 ++ 7#3) rfl
        (.append (.append (.append (.append .named .named) mode) .ignored) .named)
  | not =>
    simp only [decode, op]
    exact encode_and_careMask op (7#3 ++ 7#3 ++ 0#6) rfl (.append (.append .named .named) .ignored)
  | jmp =>
    simp only [decode, op]
    exact encode_and_careMask op (0#3 ++ 7#3 ++ 0#6) rfl (.append (.append .ignored .named) .ignored)
  | jsr =>
    simp only [decode, op]
    split
    case isTrue relative => exact encode_and_careMask op (1#1 ++ 2047#11) rfl (.append (.mode relative) .named)
    case isFalse register =>
      have mode := KeepsField.mode (Bool.eq_false_of_not_eq_true register)
      exact encode_and_careMask op (1#1 ++ 0#2 ++ 7#3 ++ 0#6) rfl
        (.append (.append (.append mode .ignored) .named) .ignored)
  | trap =>
    simp only [decode, op]
    exact encode_and_careMask op (0#4 ++ 255#8) rfl (.append .ignored .named)
  | reserved8 | reservedD =>
    simp only [decode, op]
    exact encode_and_careMask op 0#12 rfl .ignored

end Sys2Proof.Machine

/-! ## Reserved words end the run (R126, R203) -/

namespace Sys2Proof.Machine

/-- A row whose mask covers the opcode field gives its words the opcode of the row's pattern (R91). -/
theorem opcodeOf_of_row {mask pattern w : Word} (row : w &&& mask = pattern)
    (covers : mask.extractLsb' 12 4 = BitVec.allOnes 4) : opcodeOf w = opcodeOf pattern := by
  rw [opcodeOf, opcodeOf, ← row, BitVec.extractLsb'_and, covers, BitVec.and_allOnes]

theorem onlyRun_setRun (r : RunState) (s : State) : OnlyRun r s (s.setRun r) :=
  ⟨rfl, fun _ => rfl, rfl, rfl, fun _ => rfl, ⟨rfl, ⟨rfl, rfl⟩, rfl, rfl⟩, rfl, rfl⟩

/-- Settles O30: the opcode alone selects the illegal instruction, and its `exec` updates `run` alone. -/
theorem reservedOpcodesEndTheRun : Obligations.ReservedOpcodesEndTheRun := by
  refine ⟨fun w row => ?_, fun w row => ?_, fun s => ?_⟩
  · exact decode_eq_illegal8_iff.mpr (opcodeOf_of_row row (by decide))
  · exact decode_eq_illegalD_iff.mpr (opcodeOf_of_row row (by decide))
  · exact ⟨⟨_, exec_illegal8 s, onlyRun_setRun .illegal s⟩, ⟨_, exec_illegalD s, onlyRun_setRun .illegal s⟩⟩

/-- Whatever its other bits, a reserved word ends the run (R126). -/
theorem exec_decode_reserved {w : Word} (reserved : ReservedWord w) (s : State) :
    exec (decode w) s = .next (s.setRun .illegal) := by
  obtain number8 | numberD := reserved
  · rw [decode_eq_illegal8_iff.mpr (opcodeOf_eq_iff.mpr number8), exec_illegal8]
  · rw [decode_eq_illegalD_iff.mpr (opcodeOf_eq_iff.mpr numberD), exec_illegalD]

theorem step_illegal {s : State} (run : s.run = .illegal) : step s = .fault (illegalReport s) := by
  simp only [step, run]

/-- Settles O45: only pc and `run` are updated, so the cell at `pc - 1` is the one that was fetched. -/
theorem illegalWordIsReportedPrecisely : Obligations.IllegalWordIsReportedPrecisely := by
  intro s run phase stop stops plain reserved
  let t := (s.setPc (s.pc + 1)).setRun .illegal
  have ended : step s = .next t := by
    rw [step_cycle_plain run phase stop stops plain, exec_decode_reserved reserved]
  have reported : step t = .fault (.illegalInstruction (s.cell s.pc) s.pc) := by
    have addr : t.pc - 1 = s.pc := BitVec.add_sub_cancel s.pc 1
    rw [step_illegal rfl, illegalReport, addr]
    rfl
  exact ⟨t, ended, rfl, rfl, fun _ => rfl, rfl, fun _ => rfl, ⟨rfl, ⟨rfl, rfl⟩, rfl, rfl⟩, reported⟩

end Sys2Proof.Machine

/-! ## The cycle (R120, R122, R207) -/

namespace Sys2Proof.Machine

/-- The sample of the stop flag that opens a cycle decides between an interrupt and a fetch (R120, D21). -/
theorem step_cycle {s : State} (run : s.run = .running) (phase : s.phase = .cycle) :
    step s = if (stopRequested s).1 then .next (interrupt (stopRequested s).2)
      else exec (decode (fetch (stopRequested s).2).1) (fetch (stopRequested s).2).2 := by
  simp only [step, run, phase]
  obtain ⟨seen, sampled⟩ := stopRequested s
  cases seen <;> rfl

/-- A sample touches only the flag, set once the host has set it, and the list of coming samples (R206). -/
theorem stopRequested_samplesStop (s : State) : SamplesStop s (stopRequested s).2 := by
  have flag : (stopRequested s).2.stop = (stopRequested s).1 := by rw [stopRequested_eq]
  have seen : (stopRequested s).2.stop = true ↔ StopSeen s := by rw [flag, stopRequested_fst]
  rw [stopRequested_eq] at seen ⊢
  exact ⟨fun _ => rfl, rfl, rfl, fun _ => rfl, rfl, rfl, ⟨rfl, rfl⟩, seen, rfl⟩

theorem stopRequested_sameControl (s : State) : SameControl s (stopRequested s).2 := by
  rw [stopRequested_eq]
  exact ⟨rfl, rfl, rfl⟩

/-- Taking a stop touches only the run state and the phase, of which a sample says nothing (R207). -/
theorem SamplesStop.interrupt {s t : State} (h : SamplesStop s t) : SamplesStop s (interrupt t) := h

theorem instr_wellFormed (i : Instr) : i.wellFormed = true := by
  cases i <;> rfl

/-- Settles O43: the cycle opens with the sample of the stop flag, and its fetch is a read at pc and the increment. -/
theorem stepRunsTheDecodedInstruction : Obligations.StepRunsTheDecodedInstruction := by
  intro s run phase
  have sampled : SamplesStop s (stopRequested s).2 := stopRequested_samplesStop s
  constructor
  · intro seen
    have taken : step s = .next (interrupt (stopRequested s).2) := by
      rw [step_cycle run phase, if_pos ((stopRequested_fst s).mpr seen)]
    exact ⟨_, taken, sampled.interrupt, rfl, rfl⟩
  · intro notSeen
    have pc : (stopRequested s).2.pc = s.pc := by rw [stopRequested_eq]
    refine ⟨(stopRequested s).2, _, _, sampled, stopRequested_sameControl s, memReadPollsOnlyAtKbsr _ _,
      instr_wellFormed _, ?_⟩
    rw [step_cycle run phase, if_neg (mt (stopRequested_fst s).mp notSeen), fetch_eq, pc]

end Sys2Proof.Machine

/-! ## Which states have a next one (R127) -/

namespace Sys2Proof.Machine

/-- No instruction faults or is refused (R200). -/
theorem exec_answers (i : Instr) (s : State) : ∃ t, exec i s = .next t := by
  cases i <;> exact ⟨_, rfl⟩

theorem step_of_running {s : State} (run : s.run = .running) : ∃ t, step s = .next t := by
  cases phase : s.phase with
  | cycle =>
    rw [step_cycle run phase]
    split
    · exact ⟨_, rfl⟩
    · exact exec_answers _ _
  | getcWait | inWait | puts | putsp =>
    simp only [step, run, phase]
    exact ⟨_, rfl⟩

theorem step_of_final {s : State} (final : s.run ≠ .running) : ∃ f, step s = .fault f := by
  cases run : s.run with
  | running => exact absurd run final
  | halted | illegal | interrupted =>
    simp only [step, run]
    exact ⟨_, rfl⟩

/-- Settles O44: a running state answers a next state and a final one a fault, and no answer is both. -/
theorem finalStatesHaveNoStep : Obligations.FinalStatesHaveNoStep := by
  intro s
  by_cases run : s.run = .running
  · obtain ⟨t, next⟩ := step_of_running run
    simp [run, next]
  · obtain ⟨f, fault⟩ := step_of_final run
    simp [run, fault]

end Sys2Proof.Machine

/-! ## One word of each row (R92) -/

namespace Sys2Proof.Machine

/-- Settles O5: the decoder computes on each of the 19 words. -/
theorem sampleWordsDecode : Obligations.SampleWordsDecode := by
  unfold Obligations.SampleWordsDecode
  decide

end Sys2Proof.Machine

/-! ## ADD, AND and NOT (R140 to R144) -/

namespace Sys2Proof.Machine

/-- A row whose mask covers a bit gives that bit of its words the value it has in the row's pattern (R92). -/
theorem getLsbD_of_row {mask pattern w : Word} {k : Nat} (row : w &&& mask = pattern)
    (covers : mask.getLsbD k = true) : w.getLsbD k = pattern.getLsbD k := by
  rw [← row, BitVec.getLsbD_and, covers, Bool.and_true]

/-- The opcode selects ADD and bit 5 its mode (R97). -/
theorem decode_of_add {w : Word} (op : opcodeOf w = .add) :
    decode w = if w.getLsbD 5 then .addImm (regField 9 w) (regField 6 w) (w.extractLsb' 0 5)
      else .addReg (regField 9 w) (regField 6 w) (regField 0 w) := by
  simp only [decode, op]

/-- The opcode selects AND and bit 5 its mode (R97). -/
theorem decode_of_and {w : Word} (op : opcodeOf w = .and) :
    decode w = if w.getLsbD 5 then .andImm (regField 9 w) (regField 6 w) (w.extractLsb' 0 5)
      else .andReg (regField 9 w) (regField 6 w) (regField 0 w) := by
  simp only [decode, op]

theorem decode_of_not {w : Word} (op : opcodeOf w = .not) : decode w = .not (regField 9 w) (regField 6 w) := by
  simp only [decode, op]

/-- The end that every flag-updating instruction has in common (R41, R42): the result, its flag, and the frame. -/
theorem writeResult_onlyResult (d : Reg) (v : Word) (s : State) : OnlyResult d v s (writeResult d v s) := by
  have result : (writeResult d v s).reg d = v := s.setReg_reg_same d v
  have others : RegsBut d s (writeResult d v s) := fun _ other => s.setReg_reg_other v other
  exact ⟨result, flagOf_condOf v, others, rfl, fun _ => rfl, ⟨rfl, ⟨rfl, rfl⟩, rfl, rfl⟩, rfl, rfl, rfl⟩

/-- Settles O14: bit 5 is clear, and the sum is a written result. -/
theorem addRegisterAddsTwoRegisters : Obligations.AddRegisterAddsTwoRegisters := by
  refine ⟨fun w row => ?_, fun s d a b => ⟨_, exec_addReg d a b s, writeResult_onlyResult d _ s⟩⟩
  have register : w.getLsbD 5 = false := getLsbD_of_row row (by decide)
  exact (decode_of_add (opcodeOf_of_row row (by decide))).trans (if_neg (ne_true_of_eq_false register))

/-- Settles O15: bit 5 is set, and the sum is a written result. -/
theorem addImmediateAddsTheExtendedField : Obligations.AddImmediateAddsTheExtendedField := by
  refine ⟨fun w row => ?_, fun s d a imm5 => ⟨_, exec_addImm d a imm5 s, writeResult_onlyResult d _ s⟩⟩
  have immediate : w.getLsbD 5 = true := getLsbD_of_row row (by decide)
  exact (decode_of_add (opcodeOf_of_row row (by decide))).trans (if_pos immediate)

/-- Settles O16: bit 5 is clear, and the conjunction is a written result. -/
theorem andRegisterMasksTwoRegisters : Obligations.AndRegisterMasksTwoRegisters := by
  refine ⟨fun w row => ?_, fun s d a b => ⟨_, exec_andReg d a b s, writeResult_onlyResult d _ s⟩⟩
  have register : w.getLsbD 5 = false := getLsbD_of_row row (by decide)
  exact (decode_of_and (opcodeOf_of_row row (by decide))).trans (if_neg (ne_true_of_eq_false register))

/-- Settles O17: bit 5 is set, and the conjunction is a written result. -/
theorem andImmediateMasksWithTheExtendedField : Obligations.AndImmediateMasksWithTheExtendedField := by
  refine ⟨fun w row => ?_, fun s d a imm5 => ⟨_, exec_andImm d a imm5 s, writeResult_onlyResult d _ s⟩⟩
  have immediate : w.getLsbD 5 = true := getLsbD_of_row row (by decide)
  exact (decode_of_and (opcodeOf_of_row row (by decide))).trans (if_pos immediate)

/-- Settles O18: the opcode alone selects NOT, and the complement is a written result. -/
theorem notComplementsTheSource : Obligations.NotComplementsTheSource :=
  ⟨fun _ row => decode_of_not (opcodeOf_of_row row (by decide)),
    fun s d a => ⟨_, exec_not d a s, writeResult_onlyResult d _ s⟩⟩

end Sys2Proof.Machine

/-! ## BR, JMP, JSR and JSRR (R150 to R153) -/

namespace Sys2Proof.Machine

theorem decode_of_br {w : Word} (op : opcodeOf w = .br) : decode w = .br (w.extractLsb' 9 3) (w.extractLsb' 0 9) := by
  simp only [decode, op]

theorem decode_of_jmp {w : Word} (op : opcodeOf w = .jmp) : decode w = .jmp (regField 6 w) := by
  simp only [decode, op]

/-- The opcode selects JSR or JSRR and bit 11 which of the two (R98). -/
theorem decode_of_jsr {w : Word} (op : opcodeOf w = .jsr) :
    decode w = if w.getLsbD 11 then .jsr (w.extractLsb' 0 11) else .jsrr (regField 6 w) := by
  simp only [decode, op]

theorem setPc_onlyPc (v : Word) (s : State) : OnlyPc v s (s.setPc v) :=
  ⟨rfl, fun _ => rfl, rfl, fun _ => rfl, ⟨rfl, ⟨rfl, rfl⟩, rfl, rfl⟩, rfl, rfl, rfl⟩

/-- Staying at the old pc changes nothing else either. -/
theorem onlyPc_refl (s : State) : OnlyPc s.pc s s := setPc_onlyPc s.pc s

/-- The link and the jump that JSR and JSRR have in common (R152, R153). -/
theorem setReg_setPc_onlyLinkAndPc (link v : Word) (s : State) :
    OnlyLinkAndPc link v s ((s.setReg linkReg link).setPc v) := by
  have linked : ((s.setReg linkReg link).setPc v).reg 7 = link := s.setReg_reg_same linkReg link
  have others : RegsBut 7 s ((s.setReg linkReg link).setPc v) := fun _ other => s.setReg_reg_other link other
  exact ⟨linked, rfl, others, rfl, fun _ => rfl, ⟨rfl, ⟨rfl, rfl⟩, rfl, rfl⟩, rfl, rfl, rfl⟩

/-- Settles O19: a taken branch is an update of pc, and one not taken leaves the state as it is. -/
theorem branchTakenWhenMaskMeetsFlag : Obligations.BranchTakenWhenMaskMeetsFlag := by
  refine ⟨fun w row => decode_of_br (opcodeOf_of_row row (by decide)),
    fun s mask offset9 => ⟨_, exec_br mask offset9 s, ?_⟩⟩
  split
  case isTrue taken => exact setPc_onlyPc _ s
  case isFalse notTaken => exact onlyPc_refl s

/-- Settles O20: the opcode alone selects JMP, and the jump is an update of pc. -/
theorem jumpGoesToTheBaseRegister : Obligations.JumpGoesToTheBaseRegister :=
  ⟨fun _ row => decode_of_jmp (opcodeOf_of_row row (by decide)),
    fun s b => ⟨_, exec_jmp b s, setPc_onlyPc (s.reg b) s⟩⟩

/-- Settles O21: bit 11 is set, and the call is a link and a jump. -/
theorem jsrLinksThenGoesPcRelative : Obligations.JsrLinksThenGoesPcRelative := by
  refine ⟨fun w row => ?_, fun s offset11 => ⟨_, exec_jsr offset11 s, setReg_setPc_onlyLinkAndPc s.pc _ s⟩⟩
  have relative : w.getLsbD 11 = true := getLsbD_of_row row (by decide)
  exact (decode_of_jsr (opcodeOf_of_row row (by decide))).trans (if_pos relative)

/-- Settles O22: bit 11 is clear, and the call is a link and a jump to the base, which the link has overwritten only
where the base is R7 and is read last. -/
theorem jsrrLinksThenGoesToTheBase : Obligations.JsrrLinksThenGoesToTheBase := by
  refine ⟨fun w row => ?_, fun s b => ⟨_, exec_jsrr b s, ?_⟩⟩
  · have register : w.getLsbD 11 = false := getLsbD_of_row row (by decide)
    exact (decode_of_jsr (opcodeOf_of_row row (by decide))).trans (if_neg (ne_true_of_eq_false register))
  · rw [jsrr_target]
    exact setReg_setPc_onlyLinkAndPc s.pc _ s

end Sys2Proof.Machine

/-! ## Loads and stores (R160 to R167) -/

namespace Sys2Proof.Machine

/-! ### Decoding: none of the seven has a mode bit, so the opcode alone selects it (R92) -/

theorem decode_of_ld {w : Word} (op : opcodeOf w = .ld) : decode w = .ld (regField 9 w) (w.extractLsb' 0 9) := by
  simp only [decode, op]

theorem decode_of_ldi {w : Word} (op : opcodeOf w = .ldi) : decode w = .ldi (regField 9 w) (w.extractLsb' 0 9) := by
  simp only [decode, op]

theorem decode_of_ldr {w : Word} (op : opcodeOf w = .ldr) :
    decode w = .ldr (regField 9 w) (regField 6 w) (w.extractLsb' 0 6) := by
  simp only [decode, op]

theorem decode_of_lea {w : Word} (op : opcodeOf w = .lea) : decode w = .lea (regField 9 w) (w.extractLsb' 0 9) := by
  simp only [decode, op]

theorem decode_of_st {w : Word} (op : opcodeOf w = .st) : decode w = .st (regField 9 w) (w.extractLsb' 0 9) := by
  simp only [decode, op]

theorem decode_of_sti {w : Word} (op : opcodeOf w = .sti) : decode w = .sti (regField 9 w) (w.extractLsb' 0 9) := by
  simp only [decode, op]

theorem decode_of_str {w : Word} (op : opcodeOf w = .str) :
    decode w = .str (regField 9 w) (regField 6 w) (w.extractLsb' 0 6) := by
  simp only [decode, op]

/-! ### Effects -/

/-- The end that the three loads have in common: the read, and then its word as the result (R160 to R162). -/
theorem loadInto_loadsCell (d : Reg) (a : Word) (s : State) : LoadsCell d a s (loadInto d a s) := by
  have read : ReadsCell a s (memRead a s).1 (memRead a s).2 := memReadPollsOnlyAtKbsr a s
  rw [loadInto_eq]
  exact ⟨_, _, read, writeResult_onlyResult d _ _⟩

/-- Settles O23: the load is one of the PC-relative cell. -/
theorem ldLoadsThePcRelativeCell : Obligations.LdLoadsThePcRelativeCell :=
  ⟨fun _ row => decode_of_ld (opcodeOf_of_row row (by decide)),
    fun s d offset9 => ⟨_, exec_ld d offset9 s, loadInto_loadsCell d _ s⟩⟩

/-- Settles O24: the pointer's read answers the address and leaves the state that the load is made in. -/
theorem ldiLoadsThroughThePointer : Obligations.LdiLoadsThroughThePointer := by
  refine ⟨fun w row => decode_of_ldi (opcodeOf_of_row row (by decide)), fun s d offset9 => ?_⟩
  have pointer := memReadPollsOnlyAtKbsr (s.pc + sext offset9) s
  exact ⟨_, _, _, exec_ldi d offset9 s, pointer, loadInto_loadsCell d _ _⟩

/-- Settles O25: the base is read before the load writes its destination, so the two may be one register. -/
theorem ldrLoadsTheBaseOffsetCell : Obligations.LdrLoadsTheBaseOffsetCell :=
  ⟨fun _ row => decode_of_ldr (opcodeOf_of_row row (by decide)),
    fun s d b offset6 => ⟨_, exec_ldr d b offset6 s, loadInto_loadsCell d _ s⟩⟩

/-- Settles O26: the address is itself the written result, with no read of memory before it. -/
theorem leaLoadsTheAddressAndSetsTheFlag : Obligations.LeaLoadsTheAddressAndSetsTheFlag :=
  ⟨fun _ row => decode_of_lea (opcodeOf_of_row row (by decide)),
    fun s d offset9 => ⟨_, exec_lea d offset9 s, writeResult_onlyResult d _ s⟩⟩

/-- Settles O27: the store is a plain one into the PC-relative cell. -/
theorem stStoresToThePcRelativeCell : Obligations.StStoresToThePcRelativeCell :=
  ⟨fun _ row => decode_of_st (opcodeOf_of_row row (by decide)),
    fun s r offset9 => ⟨_, exec_st r offset9 s, memWriteIsAPlainStore _ _ s⟩⟩

/-- Settles O28: the pointer's read answers the address and leaves the state that the plain store is made in. -/
theorem stiStoresThroughThePointer : Obligations.StiStoresThroughThePointer := by
  refine ⟨fun w row => decode_of_sti (opcodeOf_of_row row (by decide)), fun s r offset9 => ?_⟩
  have pointer := memReadPollsOnlyAtKbsr (s.pc + sext offset9) s
  exact ⟨_, _, _, exec_sti r offset9 s, pointer, memWriteIsAPlainStore _ _ _⟩

/-- Settles O29: the store is a plain one into the base-relative cell, of a source that may be the base. -/
theorem strStoresToTheBaseOffsetCell : Obligations.StrStoresToTheBaseOffsetCell :=
  ⟨fun _ row => decode_of_str (opcodeOf_of_row row (by decide)),
    fun s r b offset6 => ⟨_, exec_str r b offset6 s, memWriteIsAPlainStore _ _ s⟩⟩

end Sys2Proof.Machine

/-! ## TRAP: the vector and the link (R103, R180) -/

namespace Sys2Proof.Machine

theorem decode_of_trap {w : Word} (op : opcodeOf w = .trap) : decode w = .trap (w.extractLsb' 0 8) := by
  simp only [decode, op]

/-- Settles O31: the opcode alone selects TRAP, which transfers no control and is no reserved opcode. -/
theorem trapVectorIsTheLowByte : Obligations.TrapVectorIsTheLowByte := by
  refine ⟨fun w row => decode_of_trap (opcodeOf_of_row row (by decide)), fun v s => ?_⟩
  have effect : Effect (.trap v) s (trapService v s.trapLinked) := .trap v
  refine ⟨_, exec_trap_trapLinked v s, effect.pc rfl, ?_⟩
  obtain same | ⟨halted, -⟩ | ⟨reserved, -⟩ := effect.run_cases
  · exact .inl same
  · exact .inr halted
  · obtain h | h := reserved <;> cases h

@[simp] theorem State.trapLinked_out (s : State) : s.trapLinked.out = s.out := by
  unfold State.trapLinked; split <;> rfl

theorem State.trapLinked_sameInput (s : State) : SameInput s s.trapLinked := by
  unfold State.trapLinked; split <;> exact ⟨rfl, rfl⟩

theorem State.trapLinked_sameStop (s : State) : SameStop s s.trapLinked := by
  unfold State.trapLinked; split <;> exact ⟨rfl, rfl⟩

theorem State.trapLinked_sameCells (s : State) : SameCells s s.trapLinked := fun a => by
  rw [State.cell, s.trapLinked_mem, State.cell]

theorem State.trapLinked_reg_linkReg (s : State) :
    s.trapLinked.reg linkReg = if s.params.trapLinksR7 then s.pc else s.reg linkReg := by
  unfold State.trapLinked; split <;> simp

/-- The link leaves the services' argument alone (R31). -/
theorem State.trapLinked_reg_trapReg (s : State) : s.trapLinked.reg trapReg = s.reg trapReg :=
  s.trapLinked_reg_other fun ⟨_, e⟩ => absurd e (by decide)

/-- What a TRAP does before its service runs (R180). -/
theorem State.trapLinked_trapLinks (s : State) : TrapLinks s s.trapLinked :=
  ⟨s.trapLinked_reg_linkReg, fun _ other => s.trapLinked_reg_other fun ⟨_, e⟩ => other e, s.trapLinked_pc,
    s.trapLinked_cond, s.trapLinked_sameCells, ⟨s.trapLinked_out, s.trapLinked_sameInput, s.trapLinked_sameStop⟩,
    s.trapLinked_run, s.trapLinked_phase, s.trapLinked_params⟩

end Sys2Proof.Machine

/-! ## TRAP: the frames its services share (R193, R214) -/

namespace Sys2Proof.Machine

theorem SameInput.trans {s t u : State} (h : SameInput s t) (h' : SameInput t u) : SameInput s u :=
  ⟨h'.1.trans h.1, h'.2.trans h.2⟩

theorem SameStop.trans {s t u : State} (h : SameStop s t) (h' : SameStop t u) : SameStop s u :=
  ⟨h'.1.trans h.1, h'.2.trans h.2⟩

/-- What the host offers depends on the input and its coming answers only (R214). -/
theorem SameInput.offered {s t : State} (h : SameInput s t) : t.offered = s.offered := by
  obtain ⟨input, ready⟩ := h
  rw [State.offered, State.offered, input, ready]

theorem SameInput.hostDeclines {s m t : State} (h : SameInput s m) (declines : HostDeclines m t) :
    HostDeclines s t := by
  obtain ⟨offered, input, ready⟩ := declines
  exact ⟨h.offered ▸ offered, input.trans h.1, ready.trans (congrArg Feed.tail h.2)⟩

theorem SameCore.refl (s : State) : SameCore s s := ⟨fun _ => rfl, rfl, rfl, fun _ => rfl, rfl, rfl⟩

theorem SameCore.trans {s t u : State} (h : SameCore s t) (h' : SameCore t u) : SameCore s u := by
  obtain ⟨regs, pc, cond, cells, run, params⟩ := h
  obtain ⟨regs', pc', cond', cells', run', params'⟩ := h'
  exact ⟨fun r => (regs' r).trans (regs r), pc'.trans pc, cond'.trans cond, fun a => (cells' a).trans (cells a),
    run'.trans run, params'.trans params⟩

/-- What GETC and IN do to the core is told from the state before any step that keeps the core. -/
theorem SameCore.inputStored {s m t : State} {w : Word} (h : SameCore s m) (stored : InputStored w m t) :
    InputStored w s t := by
  obtain ⟨regs, pc, cond, cells, run, params⟩ := h
  obtain ⟨r0, regs', cond', pc', cells', run', params'⟩ := stored
  rw [params, cond] at cond'
  exact ⟨r0, fun r other => (regs' r other).trans (regs r), cond', pc'.trans pc,
    fun a => (cells' a).trans (cells a), run'.trans run, params'.trans params⟩

theorem consoleWriteAll_nil (s : State) : consoleWriteAll [] s = s := by
  rw [consoleWriteAll, List.append_nil]

theorem takeCode_sameCore (s : State) : SameCore s (takeCode s).2 :=
  ⟨(takeCode_quiet s).reg, takeCode_pc s, takeCode_cond s, fun a => by rw [State.cell, takeCode_mem, State.cell],
    takeCode_run s, takeCode_params s⟩

theorem takeCode_sameStop (s : State) : SameStop s (takeCode s).2 := ⟨takeCode_stop s, takeCode_stops s⟩

theorem takeCode_hostDeclines {s : State} (h : s.offered = none) : HostDeclines s (takeCode s).2 := by
  rw [takeCode_none h]
  exact ⟨h, rfl, rfl⟩

theorem takeCode_tails {s : State} {c : Code} (h : s.offered = some c) :
    (takeCode s).2.input = s.input.tail ∧ (takeCode s).2.ready = s.ready.tail := by
  rw [takeCode_some h]
  exact ⟨rfl, rfl⟩

end Sys2Proof.Machine

/-! ## GETC, IN and the reads they wait for (R182, R183, R186, R187) -/

namespace Sys2Proof.Machine

theorem readThen_some {finish : Word → State → State} {wait : State → State} {s : State} {c : Code}
    (h : s.offered = some c) : readThen finish wait s = finish c.word (takeCode s).2 := by
  rw [readThen, takeCode_some h]

theorem readThen_none {finish : Word → State → State} {wait : State → State} {s : State}
    (h : s.offered = none) : readThen finish wait s = wait (takeCode s).2 := by
  rw [readThen, takeCode_none h]

theorem finishGetc_inputStored (w : Word) (s : State) : InputStored w s (finishGetc w s) := by
  rw [finishGetc_eq, storeInput_eq]
  refine ⟨s.setReg_reg_same trapReg w, fun _ other => s.setReg_reg_other w other, ?_, rfl, fun _ => rfl, rfl, rfl⟩
  split
  case isTrue flags => simpa [flags] using flagOf_condOf w
  case isFalse => rfl

theorem finishGetc_samePorts (w : Word) (s : State) : SamePorts s (finishGetc w s) := by
  rw [finishGetc_eq, storeInput_eq]
  exact ⟨rfl, ⟨rfl, rfl⟩, rfl, rfl⟩

/-- The state in which IN has echoed the code and stored it (R186). -/
def inStored (w : Word) (s : State) : State := finishGetc w (consoleWrite (loByte w) s)

/-- IN ends there, unless it goes on as PUTSP under IN_FALLTHROUGH (R187). -/
theorem finishIn_eq_inStored (w : Word) (s : State) :
    finishIn w s = if s.params.inFallthrough then putspCell w (inStored w s) else inStored w s := by
  split
  case isTrue through => exact finishIn_fallthrough w s through
  case isFalse ends => exact finishIn_eq w s (Bool.eq_false_of_not_eq_true ends)

/-- `m` is reached from `s` as the host delivers `c` to a read: the code is stored, and `echo` is written (R182,
R186). -/
structure Delivered (c : Code) (echo : List Byte) (s m : State) : Prop where
  stored : InputStored c.word s m
  out : m.out = s.out ++ echo
  input : m.input = s.input.tail
  ready : m.ready = s.ready.tail
  stop : SameStop s m
  phase : m.phase = .cycle

/-- The code is taken, the echo written, and the code stored: whatever the echo, it touches the output alone. -/
theorem finishGetc_delivered {s : State} {c : Code} (h : s.offered = some c) (echo : List Byte) :
    Delivered c echo s (finishGetc c.word (consoleWriteAll echo (takeCode s).2)) := by
  let p := consoleWriteAll echo (takeCode s).2
  have core : SameCore s p := takeCode_sameCore s
  have stop : SameStop s p := takeCode_sameStop s
  obtain ⟨inputTail, readyTail⟩ := takeCode_tails h
  obtain ⟨out, ⟨input, ready⟩, stop'⟩ := finishGetc_samePorts c.word p
  have echoed : p.out = s.out ++ echo := congrArg (· ++ echo) (takeCode_out s)
  exact ⟨core.inputStored (finishGetc_inputStored _ p), out.trans echoed, input.trans inputTail, ready.trans readyTail,
    stop.trans stop', rfl⟩

/-- GETC echoes nothing (R182). -/
theorem getc_delivered {s : State} {c : Code} (h : s.offered = some c) :
    Delivered c [] s (finishGetc c.word (takeCode s).2) := by
  have read := finishGetc_delivered h []
  rwa [consoleWriteAll_nil] at read

/-- IN echoes the low byte (R186). -/
theorem inStored_delivered {s : State} {c : Code} (h : s.offered = some c) :
    Delivered c [bits c.word 7 0] s (inStored c.word (takeCode s).2) :=
  finishGetc_delivered h [loByte c.word]

theorem exec_getc (s : State) :
    exec (.trap 0x20) s = .next (readThen finishGetc (·.setPhase .getcWait) s.trapLinked) := rfl

theorem exec_in (s : State) :
    exec (.trap 0x23) s =
      .next (readThen finishIn (·.setPhase .inWait) (consoleWriteAll Config.inPrompt s.trapLinked)) := rfl

/-- Settles O32: the read is made in the linked state, whose ports are those before the TRAP. -/
theorem getcStoresTheDeliveredCode : Obligations.GetcStoresTheDeliveredCode := by
  intro s c offered
  have offered' : s.trapLinked.offered = some c := s.trapLinked_sameInput.offered.trans offered
  have read := getc_delivered offered'
  obtain ⟨input, ready⟩ := s.trapLinked_sameInput
  have ran := (exec_getc s).trans (congrArg Host.Outcome.next (readThen_some offered'))
  have out := read.out
  rw [s.trapLinked_out, List.append_nil] at out
  exact ⟨_, _, ran, s.trapLinked_trapLinks, read.stored, out, read.input.trans (congrArg _ input),
    read.ready.trans (congrArg _ ready), s.trapLinked_sameStop.trans read.stop, read.phase⟩

/-- A read that finds no code, after the link and a prompt: the core is as linked, and the ports have the prompt written
and one answer used up (R183). -/
theorem takeCode_waits {s : State} (declined : s.offered = none) (prompt : List Byte) :
    let t := (takeCode (consoleWriteAll prompt s.trapLinked)).2
    SameCore s.trapLinked t ∧ t.out = s.out ++ prompt ∧ HostDeclines s t ∧ SameStop s t := by
  let p := consoleWriteAll prompt s.trapLinked
  have input : SameInput s p := s.trapLinked_sameInput
  have stop : SameStop s p := s.trapLinked_sameStop
  have out : p.out = s.out ++ prompt := congrArg (· ++ prompt) s.trapLinked_out
  have declines : HostDeclines p (takeCode p).2 := takeCode_hostDeclines (input.offered.trans declined)
  exact ⟨takeCode_sameCore p, (takeCode_out p).trans out, input.hostDeclines declines, stop.trans (takeCode_sameStop p)⟩

/-- Settles O33: both reads find no code, IN's after its prompt, and all that follows is the change of phase. -/
theorem getcAndInWaitForInput : Obligations.GetcAndInWaitForInput := by
  intro s declined
  have links := s.trapLinked_trapLinks
  have declined' : s.trapLinked.offered = none := s.trapLinked_sameInput.offered.trans declined
  constructor
  · have waits := takeCode_waits declined []
    rw [consoleWriteAll_nil, List.append_nil] at waits
    obtain ⟨core, out, declines, stop⟩ := waits
    have ran := (exec_getc s).trans (congrArg Host.Outcome.next (readThen_none declined'))
    exact ⟨_, _, ran, links, core, out, declines, stop, rfl⟩
  · obtain ⟨core, out, declines, stop⟩ := takeCode_waits declined Config.inPrompt
    have ran := (exec_in s).trans (congrArg Host.Outcome.next (readThen_none declined'))
    exact ⟨_, _, ran, links, core, out, declines, stop, rfl⟩

end Sys2Proof.Machine

/-! ## OUT and HALT (R184, R189, R190) -/

namespace Sys2Proof.Machine

theorem exec_out (s : State) : exec (.trap 0x21) s = .next (trapOut s.trapLinked) := rfl

/-- Settles O34: the one write of OUT takes its byte from R0, which the link leaves alone. -/
theorem outWritesTheLowByteOfR0 : Obligations.OutWritesTheLowByteOfR0 := by
  intro s
  have out : (trapOut s.trapLinked).out = s.out ++ [bits (s.reg 0) 7 0] := by
    have written : (trapOut s.trapLinked).out = s.trapLinked.out ++ [bits (s.trapLinked.reg trapReg) 7 0] := rfl
    rw [written, s.trapLinked_out, s.trapLinked_reg_trapReg]
    rfl
  exact ⟨_, _, exec_out s, s.trapLinked_trapLinks, .refl _, out, s.trapLinked_sameInput,
    s.trapLinked_sameStop, s.trapLinked_phase⟩

/-- Every vector that names no service selects HALT (R190). -/
theorem trapService_halt {v : BitVec 8} (h : v ∉ [vecGetc, vecOut, vecPuts, vecIn, vecPutsp]) (s : State) :
    trapService v s = (consoleWriteAll Config.haltNotice s).setRun .halted := by
  simp only [List.mem_cons, List.not_mem_nil, or_false, not_or] at h
  obtain ⟨getc, out, puts, inp, putsp⟩ := h
  rw [trapService, if_neg getc, if_neg out, if_neg puts, if_neg inp, if_neg putsp, ite_self]
  rfl

/-- Settles O38: the notice and the run state are all that changes after the link. -/
theorem haltEndsTheRunWithTheNotice : Obligations.HaltEndsTheRunWithTheNotice := by
  intro s v getc out puts inp putsp
  have halts : v ∉ [vecGetc, vecOut, vecPuts, vecIn, vecPutsp] := by
    simp only [List.mem_cons, List.not_mem_nil, or_false, not_or]
    exact ⟨getc, out, puts, inp, putsp⟩
  have ran := (exec_trap_trapLinked v s).trans (congrArg Host.Outcome.next (trapService_halt halts s.trapLinked))
  have notice : s.trapLinked.out ++ Config.haltNotice = s.out ++ Config.haltNotice := by rw [s.trapLinked_out]
  exact ⟨_, _, ran, s.trapLinked_trapLinks, rfl, fun _ => rfl, s.trapLinked_pc, s.trapLinked_cond,
    s.trapLinked_sameCells, notice, s.trapLinked_sameInput, s.trapLinked_sameStop, s.trapLinked_phase,
    s.trapLinked_params⟩

end Sys2Proof.Machine

/-! ## The micro-steps of PUTS and PUTSP (R185, R188, R191) -/

namespace Sys2Proof.Machine

theorem step_puts {s : State} {a : Word} (run : s.run = .running) (phase : s.phase = .puts a) :
    step s = .next (putsCell a s) := by
  simp only [step, run, phase]

/-- The read, and then by the word read the end or one byte; neither touches the core. -/
theorem putsCell_microStep (a : Word) (s : State) : PutsMicroStep a s (putsCell a s) := by
  refine ⟨_, _, memReadPollsOnlyAtKbsr a s, ?_⟩
  rw [putsCell_eq]
  split <;> exact ⟨.refl _, ⟨rfl, rfl⟩, ⟨rfl, rfl⟩, rfl, rfl⟩

/-- The read, and then the end or a byte, first by the low byte and then by the high one. -/
theorem putspCell_microStep (a : Word) (s : State) : PutspMicroStep a s (putspCell a s) := by
  refine ⟨_, _, memReadPollsOnlyAtKbsr a s, ?_⟩
  rw [putspCell_eq]
  split
  case isTrue low => exact ⟨.refl _, ⟨rfl, rfl⟩, ⟨rfl, rfl⟩, (if_pos low).mpr ⟨rfl, rfl⟩⟩
  case isFalse low =>
    split
    case isTrue high =>
      exact ⟨.refl _, ⟨rfl, rfl⟩, ⟨rfl, rfl⟩, (if_neg low).mpr ((if_pos high).mpr ⟨rfl, rfl⟩)⟩
    case isFalse high =>
      have both := List.append_assoc (memRead a s).2.out [loByte (memRead a s).1] [hiByte (memRead a s).1]
      exact ⟨.refl _, ⟨rfl, rfl⟩, ⟨rfl, rfl⟩, (if_neg low).mpr ((if_neg high).mpr ⟨both, rfl⟩)⟩

theorem exec_puts (s : State) : exec (.trap 0x22) s = .next (putsCell (s.trapLinked.reg trapReg) s.trapLinked) := rfl

theorem exec_putsp (s : State) : exec (.trap 0x24) s = .next (putspCell (s.trapLinked.reg trapReg) s.trapLinked) := rfl

/-- Settles O35: both in the TRAP's own step and later a step is one cell. -/
theorem putsWritesOneCellAStep : Obligations.PutsWritesOneCellAStep := by
  refine ⟨fun s => ?_, fun s a run phase => ⟨_, step_puts run phase, putsCell_microStep a s⟩⟩
  have ran := exec_puts s
  rw [s.trapLinked_reg_trapReg] at ran
  exact ⟨_, _, ran, s.trapLinked_trapLinks, putsCell_microStep _ _⟩

/-- Settles O37: both in the TRAP's own step and later a step is one cell. -/
theorem putspWritesTwoBytesACell : Obligations.PutspWritesTwoBytesACell := by
  refine ⟨fun s => ?_, fun s a run phase => ⟨_, step_putsp run phase, putspCell_microStep a s⟩⟩
  have ran := exec_putsp s
  rw [s.trapLinked_reg_trapReg] at ran
  exact ⟨_, _, ran, s.trapLinked_trapLinks, putspCell_microStep _ _⟩

/-- The end of IN: PUTSP's first cell under IN_FALLTHROUGH, else nothing more (R187). -/
theorem finishIn_goesOn (w : Word) (s : State) :
    if s.params.inFallthrough then PutspMicroStep w (inStored w s) (finishIn w s) else finishIn w s = inStored w s := by
  rw [finishIn_eq_inStored]
  split
  · exact putspCell_microStep w _
  · rfl

/-- Settles O36: the read is made after the prompt, which changes the output alone. -/
theorem inPromptsEchoesAndStores : Obligations.InPromptsEchoesAndStores := by
  intro s c offered
  let p := consoleWriteAll Config.inPrompt s.trapLinked
  have offered' : p.offered = some c := s.trapLinked_sameInput.offered.trans offered
  have read := inStored_delivered offered'
  have goesOn := finishIn_goesOn c.word (takeCode p).2
  have params : (takeCode p).2.params = s.params := (takeCode_params p).trans s.trapLinked_params
  obtain ⟨input, ready⟩ := s.trapLinked_sameInput
  have out : p.out = s.out ++ Config.inPrompt := congrArg (· ++ Config.inPrompt) s.trapLinked_out
  rw [params] at goesOn
  exact ⟨_, _, _, (exec_in s).trans (congrArg _ (readThen_some offered')), s.trapLinked_trapLinks, read.stored,
    by rw [read.out, out], read.input.trans (congrArg _ input), read.ready.trans (congrArg _ ready),
    s.trapLinked_sameStop.trans read.stop, read.phase, goesOn⟩

end Sys2Proof.Machine

/-! ## A waiting core (R183, R208, R219) -/

namespace Sys2Proof.Machine

theorem step_getcWait {s : State} (run : s.run = .running) (phase : s.phase = .getcWait) :
    step s = .next (awaitCode finishGetc s) := by
  simp only [step, run, phase]

theorem step_inWait {s : State} (run : s.run = .running) (phase : s.phase = .inWait) :
    step s = .next (awaitCode finishIn s) := by
  simp only [step, run, phase]

/-- A hold samples the stop flag, and tries the read once where it is not set (D21). -/
theorem awaitCode_eq (finish : Word → State → State) (s : State) :
    awaitCode finish s = if (stopRequested s).1 then interrupt (stopRequested s).2
      else readThen finish id (stopRequested s).2 := by
  unfold awaitCode readThen
  obtain ⟨seen, sampled⟩ := stopRequested s
  cases seen <;> rfl

theorem awaitCode_of_stopSeen {s : State} (seen : StopSeen s) (finish : Word → State → State) :
    awaitCode finish s = interrupt (stopRequested s).2 := by
  rw [awaitCode_eq, if_pos ((stopRequested_fst s).mpr seen)]

theorem awaitCode_of_not_stopSeen {s : State} (notSeen : ¬ StopSeen s) (finish : Word → State → State) :
    awaitCode finish s = readThen finish id (stopRequested s).2 := by
  rw [awaitCode_eq, if_neg (mt (stopRequested_fst s).mp notSeen)]

theorem stopRequested_sameCore (s : State) : SameCore s (stopRequested s).2 := by
  rw [stopRequested_eq]
  exact .refl s

theorem stopRequested_stop_of_not_stopSeen {s : State} (notSeen : ¬ StopSeen s) :
    (stopRequested s).2.stop = false := by
  obtain ⟨-, -, -, -, -, -, -, stop, -⟩ := stopRequested_samplesStop s
  exact Bool.eq_false_of_not_eq_true (mt stop.mp notSeen)

/-- A read in a hold, told from the state before the sample that found no stop. -/
theorem Delivered.of_sample {c : Code} {echo : List Byte} {s m : State}
    (h : Delivered c echo (stopRequested s).2 m) (notSeen : ¬ StopSeen s) :
    InputStored c.word s m ∧ m.out = s.out ++ echo ∧ m.input = s.input.tail ∧ m.ready = s.ready.tail ∧
      m.stop = false ∧ m.stops = s.stops.tail := by
  obtain ⟨-, -, -, -, -, out, ⟨input, ready⟩, -, stops⟩ := stopRequested_samplesStop s
  obtain ⟨stored, out', input', ready', ⟨stop', stops'⟩, -⟩ := h
  exact ⟨(stopRequested_sameCore s).inputStored stored, out ▸ out', input ▸ input', ready ▸ ready',
    stop'.trans (stopRequested_stop_of_not_stopSeen notSeen), stops'.trans stops⟩

/-- Settles O39: a hold opens with the sample, which touches neither core nor input; then comes one attempt of the
read. -/
theorem waitingCoreHoldsUntilTheHostActs : Obligations.WaitingCoreHoldsUntilTheHostActs := by
  intro s run phase
  let p := (stopRequested s).2
  have core : SameCore s p := stopRequested_sameCore s
  obtain ⟨-, -, -, -, -, out, input, -, stops⟩ : SamplesStop s p := stopRequested_samplesStop s
  obtain ⟨-, samePhase, sampledParams⟩ : SameControl s p := stopRequested_sameControl s
  have holds : ∃ finish, step s = .next (awaitCode finish s) :=
    phase.elim (fun getc => ⟨_, step_getcWait run getc⟩) (fun inp => ⟨_, step_inWait run inp⟩)
  refine ⟨fun seen => ?stopped, fun notSeen declined => ?held, fun notSeen c offered => ?finished⟩
  case stopped =>
    obtain ⟨finish, ran⟩ := holds
    rw [awaitCode_of_stopSeen seen] at ran
    exact ⟨_, ran, (stopRequested_samplesStop s).interrupt, rfl, rfl⟩
  case held =>
    obtain ⟨finish, ran⟩ := holds
    have declinedP : p.offered = none := input.offered.trans declined
    rw [awaitCode_of_not_stopSeen notSeen, readThen_none declinedP] at ran
    exact ⟨_, ran, core.trans (takeCode_sameCore p), (takeCode_out p).trans out,
      input.hostDeclines (takeCode_hostDeclines declinedP),
      (takeCode_stop p).trans (stopRequested_stop_of_not_stopSeen notSeen), (takeCode_stops p).trans stops,
      (takeCode_phase p).trans samePhase⟩
  case finished =>
    have offeredP : p.offered = some c := input.offered.trans offered
    have ends (finish) : awaitCode finish s = finish c.word (takeCode p).2 := by
      rw [awaitCode_of_not_stopSeen notSeen, readThen_some offeredP]
    obtain getc | inp := phase
    · have read := getc_delivered offeredP
      obtain ⟨stored, out, inputTail, readyTail, stop, stops⟩ := read.of_sample notSeen
      exact ⟨_, _, (step_getcWait run getc).trans (congrArg _ (ends _)), stored, inputTail, readyTail, stop, stops,
        read.phase, fun _ => ⟨out.trans (List.append_nil _), rfl⟩, fun inp => (nomatch getc.symm.trans inp)⟩
    · have read := inStored_delivered offeredP
      obtain ⟨stored, out, inputTail, readyTail, stop, stops⟩ := read.of_sample notSeen
      have goesOn := finishIn_goesOn c.word (takeCode p).2
      rw [takeCode_params, sampledParams] at goesOn
      exact ⟨_, _, (step_inWait run inp).trans (congrArg _ (ends _)), stored, inputTail, readyTail, stop, stops,
        read.phase, fun getc => (nomatch getc.symm.trans inp), fun _ => ⟨out, goesOn⟩⟩

end Sys2Proof.Machine

/-! ## PUTS of a string, and PUTS without an end (R185, R191) -/

namespace Sys2Proof.Machine

/-- A run of `n` steps that answers `t`, and one step more that answers `u`. -/
theorem core_run_snoc {n : Nat} {s t u : State} (ran : core.run n s = .next t) (next : step t = .next u) :
    core.run (n + 1) s = .next u := by
  induction n generalizing s with
  | zero =>
    obtain rfl : s = t := Host.Outcome.next.inj ran
    exact core_run_succ 0 next
  | succ n ih =>
    cases first : step s with
    | next m =>
      rw [core_run_succ _ first] at ran ⊢
      exact ih ran
    | fault | refused =>
      have stuck : core.step s = _ := first
      simp only [Host.Core.run, stuck] at ran
      cases ran

/-- A cell that is not zero: its low byte is written, and the next cell is due (R185). -/
theorem putsCell_of_ne_zero {a : Word} {s : State} (h : (memRead a s).1 ≠ 0) :
    putsCell a s = (consoleWrite (loByte (memRead a s).1) (memRead a s).2).setPhase (.puts (a + 1)) := by
  rw [putsCell_eq, if_neg h]

/-- A zero cell where the read does not poll ends PUTS, and nothing else changes (R185). -/
theorem putsCell_of_zero {a : Word} {s : State} (plain : a ≠ kbsrAddr) (h : s.cell a = 0) :
    putsCell a s = s.setPhase .cycle := by
  have read := memRead_pure s plain
  rw [putsCell_eq, read, if_pos h]

theorem add_ofNat_succ (a : Word) (n : Nat) : a + BitVec.ofNat 16 (n + 1) = a + BitVec.ofNat 16 n + 1 := by
  rw [BitVec.ofNat_add, ← BitVec.add_assoc]
  rfl

/-- The low bytes of the `n` cells from `a` upward. -/
def State.lowBytes (s : State) (a : Word) (n : Nat) : List Byte :=
  (List.range n).map fun i => loByte (s.cell (a + BitVec.ofNat 16 i))

theorem State.lowBytes_length (s : State) (a : Word) (n : Nat) : (s.lowBytes a n).length = n := by
  rw [State.lowBytes, List.length_map, List.length_range]

theorem State.lowBytes_succ (s : State) (a : Word) (n : Nat) :
    s.lowBytes a (n + 1) = s.lowBytes a n ++ [loByte (s.cell (a + BitVec.ofNat 16 n))] := by
  rw [State.lowBytes, List.range_succ, List.map_append, State.lowBytes, List.map_singleton]

/-- By induction on their number, cells that are not zero cost PUTS a step each, and write their low bytes. -/
theorem puts_run {s : State} {a : Word} (run : s.run = .running) (phase : s.phase = .puts a) (n : Nat)
    (cells : ∀ i, i < n → a + BitVec.ofNat 16 i ≠ kbsrAddr ∧ s.cell (a + BitVec.ofNat 16 i) ≠ 0) :
    core.run n s = .next ((consoleWriteAll (s.lowBytes a n) s).setPhase (.puts (a + BitVec.ofNat 16 n))) := by
  induction n with
  | zero =>
    have start : s.setPhase (.puts (a + BitVec.ofNat 16 0)) = s := by
      rw [BitVec.add_zero, ← phase]
      rfl
    rw [State.lowBytes, List.range_zero, List.map_nil, consoleWriteAll_nil, start]
    rfl
  | succ n ih =>
    obtain ⟨plain, notZero⟩ := cells n n.lt_succ_self
    let t := (consoleWriteAll (s.lowBytes a n) s).setPhase (.puts (a + BitVec.ofNat 16 n))
    have ran : core.run n s = .next t := ih fun i below => cells i (below.trans n.lt_succ_self)
    have read : memRead (a + BitVec.ofNat 16 n) t = (s.cell (a + BitVec.ofNat 16 n), t) := memRead_pure t plain
    have wrote := putsCell_of_ne_zero (s := t) (by rw [read]; exact notZero)
    refine (core_run_snoc ran (step_puts (s := t) run rfl)).trans (congrArg _ ?_)
    rw [wrote, read, add_ofNat_succ, State.lowBytes_succ, consoleWriteAll, ← List.append_assoc]
    rfl

/-- Settles O40: after the `n` bytes the zero cell costs one step more and changes the phase alone. -/
theorem putsWritesTheWholeString : Obligations.PutsWritesTheWholeString := by
  intro n s a run phase cells plain zero
  have ran := puts_run run phase n cells
  let t := (consoleWriteAll (s.lowBytes a n) s).setPhase (.puts (a + BitVec.ofNat 16 n))
  have ended : step t = .next (t.setPhase .cycle) := by
    rw [step_puts (s := t) run rfl, putsCell_of_zero (s := t) plain zero]
  exact ⟨_, core_run_snoc ran ended, .refl s, ⟨rfl, rfl⟩, ⟨rfl, rfl⟩, rfl, rfl⟩

/-- What lets PUTS go on for ever: no cell but KBSR is zero, and the host has a code that is not zero at every ask
(R191; log 14). -/
structure NeverZero (s : State) : Prop where
  cells : ∀ b, b ≠ kbsrAddr → s.cell b ≠ 0
  host : ∀ k, (s.ready.drop k).head? = some true ∧ ∃ c : Code, (s.input.drop k).head? = some c ∧ c.word ≠ 0

/-- No read answers zero, for a poll finds a code and leaves KBSR at 0x8000; and later reads do not either (R66). -/
theorem NeverZero.memRead {s : State} (h : NeverZero s) (a : Word) :
    (memRead a s).1 ≠ 0 ∧ NeverZero (memRead a s).2 := by
  by_cases kbsr : a = kbsrAddr
  · subst kbsr
    obtain ⟨ready, c, input, codeNotZero⟩ := h.host 0
    have offered : s.offered = some c := (s.offered_eq_some c).mpr ⟨ready, input⟩
    obtain ⟨⟨-, -, -, inputTail, readyTail⟩, status, data, others⟩ := keyboardPoll_delivers offered
    rw [memRead_kbsr]
    refine ⟨ne_of_eq_of_ne status (by decide), fun b notKbsr => ?_, fun k => ?_⟩
    · by_cases kbdr : b = kbdrAddr
      · rw [kbdr, data]
        exact codeNotZero
      · rw [others b notKbsr kbdr]
        exact h.cells b notKbsr
    · rw [inputTail, readyTail]
      exact h.host (k + 1)
  · rw [memRead_pure s kbsr]
    exact ⟨h.cells a kbsr, h⟩

/-- By induction on the number of steps, PUTS over a memory that never reads zero is under way after each of them. -/
theorem puts_run_forever {s : State} {a : Word} (run : s.run = .running) (phase : s.phase = .puts a) (h : NeverZero s)
    (n : Nat) :
    ∃ t : State, core.run n s = .next t ∧ t.run = .running ∧ t.phase = .puts (a + BitVec.ofNat 16 n) ∧
      t.out.length = s.out.length + n ∧ NeverZero t := by
  induction n with
  | zero => exact ⟨s, rfl, run, by rw [phase, BitVec.add_zero], rfl, h⟩
  | succ n ih =>
    obtain ⟨t, ran, running, under, length, never⟩ := ih
    obtain ⟨notZero, later⟩ := never.memRead (a + BitVec.ofNat 16 n)
    have wrote := putsCell_of_ne_zero notZero
    refine ⟨_, core_run_snoc ran (step_puts running under), (putsCell_run _ t).trans running, ?_, ?_, ?_⟩
    · rw [wrote, add_ofNat_succ, State.setPhase_phase]
    · rw [wrote, State.setPhase_out, consoleWrite_out, memRead_out, List.length_append, length]
      rfl
    · rw [wrote]
      exact ⟨later.cells, later.host⟩

/-- Settles O41: a byte a step, over the given cells and over a memory that never reads zero. -/
theorem putsGoesOnWithoutATerminator : Obligations.PutsGoesOnWithoutATerminator := by
  constructor
  · intro n s a run phase cells
    have length : (s.out ++ s.lowBytes a n).length = s.out.length + n := by
      rw [List.length_append, s.lowBytes_length]
    exact ⟨_, puts_run run phase n cells, run, rfl, length⟩
  · intro s a run phase cells host n
    obtain ⟨t, ran, running, under, length, -⟩ := puts_run_forever run phase ⟨cells, host⟩ n
    exact ⟨t, ran, running, under, length⟩

end Sys2Proof.Machine

/-! ## Trap services write no memory (R193) -/

namespace Sys2Proof.Machine

/-- From `s` to `t` no cell but KBSR and KBDR changes. -/
def OnlyKeyboardCells (s t : State) : Prop := ∀ a : Word, a ≠ kbsrAddr → a ≠ kbdrAddr → t.cell a = s.cell a

theorem sameCells_of_mem_eq {s t : State} (h : t.mem = s.mem) : SameCells s t := fun a => by
  rw [State.cell, h, State.cell]

/-- A read changes cells only by a poll (R65, R66). -/
theorem memRead_onlyKeyboardCells (a : Word) (s : State) : OnlyKeyboardCells s (memRead a s).2 := by
  by_cases kbsr : a = kbsrAddr
  · subst kbsr
    rw [memRead_kbsr]
    cases offered : s.offered with
    | some c =>
      obtain ⟨-, -, -, others⟩ := keyboardPoll_delivers offered
      exact others
    | none =>
      obtain ⟨-, -, others⟩ := keyboardPoll_declines offered
      exact fun b notKbsr _ => others b notKbsr
  · rw [memRead_pure s kbsr]
    exact fun _ _ _ => rfl

theorem putsCell_onlyKeyboardCells (a : Word) (s : State) : OnlyKeyboardCells s (putsCell a s) := fun b h h' => by
  rw [State.cell, putsCell_mem]
  exact memRead_onlyKeyboardCells a s b h h'

theorem putspCell_onlyKeyboardCells (a : Word) (s : State) : OnlyKeyboardCells s (putspCell a s) := fun b h h' => by
  rw [State.cell, putspCell_mem]
  exact memRead_onlyKeyboardCells a s b h h'

theorem finishGetc_mem (w : Word) (s : State) : (finishGetc w s).mem = s.mem := by
  rw [finishGetc_eq, storeInput_eq]
  rfl

theorem trapGetc_mem (s : State) : (trapGetc s).mem = s.mem := by
  rw [trapGetc_eq]
  cases offered : s.offered with
  | some c => rw [readThen_some offered, finishGetc_mem, takeCode_mem]
  | none => rw [readThen_none offered, State.setPhase_mem, takeCode_mem]

/-- IN changes cells only where it goes on as PUTSP, and then as PUTSP does (R187). -/
theorem trapIn_cells (s : State) :
    SameCells s (trapIn s) ∨ (s.params.inFallthrough = true ∧ OnlyKeyboardCells s (trapIn s)) := by
  let p := consoleWriteAll Config.inPrompt s
  have asked : SameCells s (takeCode p).2 := sameCells_of_mem_eq (takeCode_mem p)
  rw [trapIn_eq]
  cases offered : p.offered with
  | none =>
    rw [readThen_none offered]
    exact .inl asked
  | some c =>
    have stored : SameCells s (inStored c.word (takeCode p).2) := fun a =>
      (sameCells_of_mem_eq (finishGetc_mem _ _) a).trans (asked a)
    rw [readThen_some offered, finishIn_eq_inStored, takeCode_params]
    split
    case isTrue through =>
      exact .inr ⟨through, fun a h h' => (putspCell_onlyKeyboardCells _ _ a h h').trans (stored a)⟩
    case isFalse => exact .inl stored

/-- A service changes no cell, or reads a string and changes those that polls change (R193). -/
theorem trapService_cells (v : BitVec 8) (s : State) :
    SameCells s (trapService v s) ∨
      ((v = vecPuts ∨ v = vecPutsp ∨ (v = vecIn ∧ s.params.inFallthrough = true)) ∧
        OnlyKeyboardCells s (trapService v s)) := by
  unfold trapService
  split_ifs with getc out puts inp putsp
  · exact .inl (sameCells_of_mem_eq (trapGetc_mem s))
  · exact .inl fun _ => rfl
  · exact .inr ⟨.inl puts, putsCell_onlyKeyboardCells _ s⟩
  · exact (trapIn_cells s).imp_right fun ⟨through, polls⟩ => ⟨.inr (.inr ⟨inp, through⟩), polls⟩
  · exact .inr ⟨.inr (.inl putsp), putspCell_onlyKeyboardCells _ s⟩
  all_goals exact .inl fun _ => rfl

/-- Settles O59: the link changes no cell, and a service at most those that polls change. -/
theorem trapServicesWriteNoMemory : Obligations.TrapServicesWriteNoMemory := by
  intro v s t h
  cases h
  have linked := s.trapLinked_sameCells
  obtain same | ⟨reads, polls⟩ := trapService_cells v s.trapLinked
  · exact ⟨fun a _ _ => (same a).trans (linked a), fun _ _ _ a => (same a).trans (linked a)⟩
  · refine ⟨fun a h h' => (polls a h h').trans (linked a), fun notPuts notPutsp ends => ?_⟩
    rw [s.trapLinked_params] at reads
    obtain puts | putsp | ⟨inp, through⟩ := reads
    · exact absurd puts notPuts
    · exact absurd putsp notPutsp
    · exact absurd through (ne_true_of_eq_false (ends inp))

end Sys2Proof.Machine

/-! ## The ends of a run (R200, R201, R203, R207, R208) -/

namespace Sys2Proof.Machine

/-- A hold of a wait ends the run only where its sample finds a stop (R208). -/
theorem awaitCode_run {finish : Word → State → State} (stores : ∀ c s, StoresInput s (finish c s)) (s : State) :
    (StopSeen s ∧ (awaitCode finish s).run = .interrupted) ∨ (awaitCode finish s).run = s.run := by
  by_cases seen : StopSeen s
  · rw [awaitCode_of_stopSeen seen]
    exact .inl ⟨seen, rfl⟩
  · rw [awaitCode_of_not_stopSeen seen]
    have sampled : (stopRequested s).2.run = s.run := (stopRequested_quiet s).run
    obtain quiet | stored := readThen_cases stores Quiet.refl (stopRequested s).2
    · exact .inr (quiet.run.trans sampled)
    · exact .inr (stored.run.trans sampled)

/-- Only the TRAP of a vector that names no service but HALT halts the machine (R189, R190, R201). -/
theorem Effect.trap_of_halted {i : Instr} {s t : State} (h : Effect i s t) (run : s.run ≠ .halted)
    (halted : t.run = .halted) : ∃ v, i = .trap v ∧ v ∉ [vecGetc, vecOut, vecPuts, vecIn, vecPutsp] := by
  cases h with
  | result _ _ reads | store _ _ _ reads => exact absurd (reads.run.symm.trans halted) run
  | jump | call => exact absurd halted run
  | illegal => exact nomatch halted
  | trap v =>
    rw [← s.trapLinked_run] at run
    obtain quiet | ⟨-, stores⟩ | ⟨noService, -⟩ := trapService_cases v s.trapLinked
    · exact absurd (quiet.run.symm.trans halted) run
    · exact absurd (stores.run.symm.trans halted) run
    · exact ⟨v, rfl, noService⟩

/-- A step runs the instruction it fetched, takes a stop at a cycle boundary or in a wait, or leaves the machine
running (R120, R207, R208). -/
theorem step_run_cases {s t : State} (h : step s = .next t) :
    t.run = .running ∨
    (t.run = .interrupted ∧ StopSeen s ∧ (s.phase = .cycle ∨ s.phase = .getcWait ∨ s.phase = .inWait)) ∨
    (s.phase = .cycle ∧ ∃ s1 m, SamplesStop s s1 ∧ m.run = .running ∧
      exec (decode (memRead s.pc s1).1) m = .next t) := by
  obtain ⟨run, ⟨phase, seen, rfl⟩ | ⟨phase, -, instr⟩ | ⟨phase, rfl⟩ | ⟨phase, rfl⟩ | ⟨a, -, rfl⟩ | ⟨a, -, rfl⟩⟩ :=
    step_cases h
  · exact .inr (.inl ⟨rfl, (stopRequested_fst s).mp seen, .inl phase⟩)
  · have sampled := stopRequested_quiet s
    have fetched : (fetch (stopRequested s).2).1 = (memRead s.pc (stopRequested s).2).1 := by
      rw [fetch_eq, sampled.pc]
    rw [fetched] at instr
    exact .inr (.inr ⟨phase, _, _, stopRequested_samplesStop s, (fetch_run _).trans (sampled.run.trans run), instr⟩)
  · obtain ⟨seen, ended⟩ | same := awaitCode_run finishGetc_storesInput s
    · exact .inr (.inl ⟨ended, seen, .inr (.inl phase)⟩)
    · exact .inl (same.trans run)
  · obtain ⟨seen, ended⟩ | same := awaitCode_run finishIn_storesInput s
    · exact .inr (.inl ⟨ended, seen, .inr (.inr phase)⟩)
    · exact .inl (same.trans run)
  · exact .inl ((putsCell_run a s).trans run)
  · exact .inl ((putspCell_run a s).trans run)

/-- Settles O46: by what a step can do to the run state, and by what its instruction can. -/
theorem runsEndOnlyByTheirThreeEvents : Obligations.RunsEndOnlyByTheirThreeEvents := by
  intro s t h
  obtain running | ⟨interrupted, stop⟩ | ⟨phase, s1, m, sampled, run, instr⟩ := step_run_cases h
  · rw [running]
    exact ⟨nofun, nofun, nofun⟩
  · rw [interrupted]
    exact ⟨nofun, nofun, fun _ => stop⟩
  have effect := exec_effect instr
  obtain same | ⟨halted, -⟩ | ⟨reserved, rfl⟩ := effect.run_cases
  · rw [same, run]
    exact ⟨nofun, nofun, nofun⟩
  · obtain ⟨v, trap, noService⟩ := effect.trap_of_halted (by rw [run]; nofun) halted
    simp only [List.mem_cons, List.not_mem_nil, or_false, not_or] at noService
    rw [halted]
    exact ⟨fun _ => ⟨phase, s1, v, sampled, trap, noService⟩, nofun, nofun⟩
  · exact ⟨nofun, fun _ => ⟨phase, s1, sampled, reservedWord_of_decode reserved⟩, nofun⟩

/-- Settles O47: no arm of the dispatch, and no phase, answers anything but a next state. -/
theorem nothingElseStopsTheMachine : Obligations.NothingElseStopsTheMachine :=
  ⟨exec_answers, fun _ => step_of_running⟩

end Sys2Proof.Machine

/-! ## Exit statuses (R211, D22) -/

namespace Sys2Proof.Machine

/-- Settles O48: each status is an entry of its own in the list that `wf` says has no duplicates. -/
theorem exitStatusesTellTheEndsApart : Obligations.ExitStatusesTellTheEndsApart := by
  intro e wf
  simp only [ExitStatuses.wf, decide_eq_true_eq, List.nodup_cons, List.mem_cons, List.not_mem_nil, or_false, not_or]
    at wf
  obtain ⟨⟨usage, load, illegal, interrupted⟩, ⟨usageLoad, usageIllegal, usageInterrupted⟩,
    ⟨loadIllegal, loadInterrupted⟩, illegalInterrupted, -⟩ := wf
  refine ⟨rfl, fun r q final same => ?_, fun r final => ?_, mt Option.some.inj usageLoad⟩
  · cases r with
    | running => exact absurd rfl final
    | halted | illegal | interrupted =>
      cases q <;> simp only [exitStatus, Option.some.injEq, reduceCtorEq] at same ⊢ <;> omega
  · cases r with
    | running => exact absurd rfl final
    | halted => exact ⟨mt Option.some.inj usage, mt Option.some.inj load⟩
    | illegal => exact ⟨mt Option.some.inj (Ne.symm usageIllegal), mt Option.some.inj (Ne.symm loadIllegal)⟩
    | interrupted => exact ⟨mt Option.some.inj (Ne.symm usageInterrupted), mt Option.some.inj (Ne.symm loadInterrupted)⟩

end Sys2Proof.Machine

/-! ## Boot order (R230, R233) -/

namespace Sys2Proof.Machine

/-- One unreadable image is enough to lose them all (R233). -/
theorem allImages_eq_none_iff (paths : List (Option Image)) : allImages paths = none ↔ none ∈ paths := by
  induction paths with
  | nil => simp [allImages]
  | cons p rest ih =>
    cases p with
    | none => simp [allImages]
    | some i => simp [allImages, ih]

theorem allImages_map_some (images : List Image) : allImages (images.map some) = some images := by
  induction images with
  | nil => rfl
  | cons i rest ih => rw [List.map_cons, allImages, ih, Option.map_some]

theorem bootWith_nil (c : Setup) : bootWith c [] = .usageError := rfl

/-- With a path given, only the images decide between a load error and a start. -/
theorem bootWith_of_ne_nil (c : Setup) {paths : List (Option Image)} (given : paths ≠ []) :
    bootWith c paths = (allImages paths).elim .loadError fun images => .started (State.boot c images) := by
  cases paths with
  | nil => exact absurd rfl given
  | cons p rest =>
    rw [bootWith]
    cases allImages (p :: rest) <;> rfl

/-- Settles O51: by whether a path is given, then by whether every image can be read. -/
theorem bootFailsBeforeTheMachineExists : Obligations.BootFailsBeforeTheMachineExists := by
  intro c paths
  refine ⟨?_, ?_, fun images given => ?_⟩
  · by_cases given : paths = []
    · simp [given, bootWith_nil]
    · rw [bootWith_of_ne_nil c given]
      cases allImages paths <;> simp [given]
  · by_cases given : paths = []
    · simp [given, bootWith_nil]
    · rw [bootWith_of_ne_nil c given, ← allImages_eq_none_iff]
      cases allImages paths <;> simp
  · rw [bootWith_of_ne_nil c (mt List.map_eq_nil_iff.mp given), allImages_map_some, Option.elim_some]

end Sys2Proof.Machine
